-- ==== Sys2Proof/Word.lean ====
section
/-! DEFINITION. The bit-vector types of the ports, and the values on the input ports at one rising clock edge. -/

namespace Sys2Proof

/-- The command word `cmd[1:0]` (R35). -/
abbrev CommandWord := BitVec 2

/-- A value word: a 64-bit binary64 word on `val_in` or `val_out` (R41). -/
abbrev ValueWord := BitVec 64

/-- A sign bit on `sign_in` or `sign_out` (R38). -/
abbrev SignBit := BitVec 1

/-- The exponent port, as wide as the wider precision needs (R8, R39). -/
abbrev ExpPort := BitVec 11

/-- The mantissa port, as wide as the wider precision needs (R8, R39). -/
abbrev ManPort := BitVec 52

/-- The values on the input ports at one rising edge of `clk` (R26). `clk` itself has no value here: one element of
this type IS one rising edge. -/
structure PortInputs where
  /-- synchronous reset, active high -/
  rst : Bool
  /-- command strobe -/
  start : Bool
  /-- command word -/
  cmd : CommandWord
  /-- value word of a decode -/
  valIn : ValueWord
  /-- sign bit of an encode -/
  signIn : SignBit
  /-- exponent bits of an encode -/
  expIn : ExpPort
  /-- mantissa bits of an encode -/
  manIn : ManPort
  deriving DecidableEq, Repr

end Sys2Proof
end

