-- ==== Sys2Proof/Config.lean ====
section
/-! DEFINITION. What is fixed for the machine: the two precisions and their constants (R6, R7). No value is left
free by the spec, so this file declares no opaque constant. -/

namespace Sys2Proof

/-- One of the two fixed configurations (R6). No other precision exists. -/
inductive Precision where
  | p32
  | p64
  deriving DecidableEq, Repr

/-- E, the number of exponent bits (R6). -/
def Precision.E : Precision → Nat
  | .p32 => 8
  | .p64 => 11

/-- M, the number of mantissa bits (R6). -/
def Precision.M : Precision → Nat
  | .p32 => 23
  | .p64 => 52

/-- `bias = 2^(E-1) - 1` (R7). -/
def Precision.bias (P : Precision) : Nat := 2 ^ (P.E - 1) - 1

/-- `EMAX = 2^E - 1`, the biased exponent of infinities and NaNs (R7). -/
def Precision.emax (P : Precision) : Nat := 2 ^ P.E - 1

/-- Total number of bits of a BitFields, `1 + E + M` (R7). -/
def Precision.totalBits (P : Precision) : Nat := 1 + P.E + P.M

end Sys2Proof
end

