-- ==== Sys2Proof/Machine/Value.lean ====
section
/-! DEFINITION. The abstract domain (R11), a BitFields as numbers (R40), and exact arithmetic on non-negative
rationals scaled by powers of two (R12). -/

namespace Sys2Proof.Machine

open Sys2Proof

/-- The abstract value domain (R11): `NaN(s)`, `Inf(s)`, or `Fin(s, q)`, the number `(-1)^s · q` with `q` any
rational `q >= 0`. The two signed zeros `Fin(0,0)` and `Fin(1,0)` are different elements; a NaN carries its sign and
no payload. -/
inductive Val where
  | nan (s : SignBit)
  | inf (s : SignBit)
  | fin (s : SignBit) (q : ℚ≥0)
  deriving DecidableEq

/-- A BitFields read as the sign bit `s`, the unsigned integer `e` of its exponent bits and the unsigned integer `m`
of its mantissa bits (R38, R40). -/
structure Fields where
  sign : SignBit
  e : Nat
  m : Nat
  deriving DecidableEq, Repr

/-- `0 <= e <= EMAX` and `0 <= m < 2^M`: the numbers of a BitFields of precision P (R40). -/
abbrev Fields.InRange (P : Precision) (f : Fields) : Prop := f.e ≤ P.emax ∧ f.m < 2 ^ P.M

/-- The exact rational `n · 2^k`, `k` any integer (R12). -/
def dyadic (n : Nat) : Int → ℚ≥0
  | .ofNat k => NNRat.divNat (n * 2 ^ k) 1
  | .negSucc k => NNRat.divNat n (2 ^ (k + 1))

/-- Whether `q >= 2^k`, `k` any integer. -/
def geTwoPow (q : ℚ≥0) : Int → Bool
  | .ofNat k => decide (q.den * 2 ^ k ≤ q.num)
  | .negSucc k => decide (q.den ≤ q.num * 2 ^ (k + 1))

/-- `floor(q · 2^k)`, `k` any integer (R12). -/
def floorScaled (q : ℚ≥0) : Int → Nat
  | .ofNat k => q.num * 2 ^ k / q.den
  | .negSucc k => q.num / (q.den * 2 ^ (k + 1))

/-- `floorlog2(q)`: for `q > 0` the unique integer `k` with `2^k <= q < 2^(k+1)` (R12). The spec gives it no value at
0, and no rule applies it there (log entry 11). -/
def floorlog2 (q : ℚ≥0) : Int :=
  let k : Int := (Nat.log2 q.num : Int) - (Nat.log2 q.den : Int)
  if geTwoPow q k then k else k - 1

end Sys2Proof.Machine
end

