-- ==== Sys2Proof/Machine/Flags.lean ====
section
/-! DEFINITION. The class code (R44, R79), the error codes (R46) and the status word (R17). -/

namespace Sys2Proof.Machine

open Sys2Proof

/-- The source's DecimalCase (R44, R79). -/
inductive DecimalCase where
  | zero
  | subnormal
  | infinity
  | nan
  | normal
  deriving DecidableEq, Repr

/-- `classify_P(e, m)` (R79). The sign plays no part in it. R79 gives it for `0 <= e <= EMAX` and `0 <= m < 2^M`
only. Beyond those ranges the model is total by its own choice (DESIGN CHOICE, log entry 19): an `e` above EMAX is
Normal, and `m` is not bounded. No command reaches that. -/
def classify (P : Precision) (e m : Nat) : DecimalCase :=
  if e = 0 then (if m = 0 then .zero else .subnormal)
  else if e = P.emax then (if m = 0 then .infinity else .nan)
  else .normal

/-- The code of a class on `cls_out` (R44). -/
def classCode : DecimalCase → BitVec 3
  | .zero => 0#3
  | .subnormal => 1#3
  | .infinity => 2#3
  | .nan => 3#3
  | .normal => 4#3

/-- The class a code names; 5, 6 and 7 name none and are never produced (R44). -/
def classOfCode (c : BitVec 3) : Option DecimalCase :=
  if c = 0#3 then some .zero
  else if c = 1#3 then some .subnormal
  else if c = 2#3 then some .infinity
  else if c = 3#3 then some .nan
  else if c = 4#3 then some .normal
  else none

/-- The errors that have a name (R46). -/
inductive CodecError where
  /-- code 1, raised by ENC32 (R100) -/
  | invalidInput
  /-- code 2, the internal contract of the normalisation (R73); no command produces it -/
  | internalNegative
  deriving DecidableEq, Repr

/-- `STATUS.code` of an error (R46). -/
def errorCode : CodecError → BitVec 2
  | .invalidInput => 1#2
  | .internalNegative => 2#2

/-- `STATUS.prec`: 0 for precision 32, 1 for 64 (R17). -/
def precisionBit : Precision → BitVec 1
  | .p32 => 0#1
  | .p64 => 1#1

/-- The status word of its fields: bit 7 reserved 0, bit 6 `prec`, bits 5:4 `kind`, bits 3:2 `code`, bit 1 `err`,
bit 0 `done` (R17). -/
def statusWord (done err : BitVec 1) (code kind : BitVec 2) (prec : BitVec 1) : BitVec 8 :=
  0#1 ++ prec ++ kind ++ code ++ err ++ done

/-- `STATUS.done`, bit 0 (R17). -/
def statusDone (w : BitVec 8) : BitVec 1 := w.extractLsb' 0 1

/-- `STATUS.err`, bit 1 (R17). -/
def statusErr (w : BitVec 8) : BitVec 1 := w.extractLsb' 1 1

/-- `STATUS.code`, bits 3:2 (R17). -/
def statusCode (w : BitVec 8) : BitVec 2 := w.extractLsb' 2 2

/-- `STATUS.kind`, bits 5:4 (R17): 0 no result, 1 FIELDS, 2 VALUE. -/
def statusKind (w : BitVec 8) : BitVec 2 := w.extractLsb' 4 2

/-- `STATUS.prec`, bit 6 (R17). -/
def statusPrec (w : BitVec 8) : BitVec 1 := w.extractLsb' 6 1

/-- `STATUS[7]`, reserved (R17). -/
def statusReserved (w : BitVec 8) : BitVec 1 := w.extractLsb' 7 1

end Sys2Proof.Machine
end

