-- ==== Sys2Proof/Machine/Codec.lean ====
section
/-! DEFINITION. The abstract layer (R9): the two total functions between `Val` and field triples. -/

namespace Sys2Proof.Machine

open Sys2Proof

/-- `encode_P(s, e, m)` (R51), one exhaustive match on the class of the fields:
`2^(1-bias) · (m / 2^M)` is written `m · 2^(1-bias-M)`, and `2^(e-bias) · (1 + m / 2^M)` is written
`(2^M + m) · 2^(e-bias-M)`; `Laws/Codec.lean` relates it to the spec's own formulas. R51 gives it for `0 <= e <= EMAX` and
`0 <= m < 2^M` only. Beyond those ranges the same formulas are applied, by the model's own choice (DESIGN CHOICE, log
entry 19). No command reaches that. -/
def encodeVal (P : Precision) (f : Fields) : Val :=
  match classify P f.e f.m with
  | .zero => .fin f.sign 0
  | .subnormal => .fin f.sign (dyadic f.m (1 - (P.bias : Int) - (P.M : Int)))
  | .infinity => .inf f.sign
  | .nan => .nan f.sign
  | .normal => .fin f.sign (dyadic (2 ^ P.M + f.m) ((f.e : Int) - (P.bias : Int) - (P.M : Int)))

/-- Infinity and the saturated result of a decode: `(s, EMAX, 0)` (R65, R67). -/
def infinityFields (P : Precision) (s : SignBit) : Fields := { sign := s, e := P.emax, m := 0 }

/-- The result of decoding a NaN: `(s, EMAX, 2^M - 1)` (R64). -/
def nanFields (P : Precision) (s : SignBit) : Fields := { sign := s, e := P.emax, m := 2 ^ P.M - 1 }

/-- The fields of a normal result (R62, middle line): with `k = floorlog2(q)`,
`(s, k + bias, floor(q / 2^(k-M)) - 2^M)`. -/
def normalFields (P : Precision) (s : SignBit) (q : ℚ≥0) : Fields :=
  let k := floorlog2 q
  { sign := s, e := (k + (P.bias : Int)).toNat, m := floorScaled q ((P.M : Int) - k) - 2 ^ P.M }

/-- The fields of a magnitude below the smallest normal number (R62, last line):
`(s, 0, floor(q · 2^(bias-1+M)))`. -/
def subnormalFields (P : Precision) (s : SignBit) (q : ℚ≥0) : Fields :=
  { sign := s, e := 0, m := floorScaled q ((P.bias : Int) - 1 + (P.M : Int)) }

/-- `decode_P(v)`, closed form (R61, R62). It truncates and never rounds (R91); the sign is copied in every case, NaN
included (R63; log entry 6); it saturates exactly from `2^(bias+1)` (R67; log entry 7). -/
def decodeVal (P : Precision) : Val → Fields
  | .nan s => nanFields P s
  | .inf s => infinityFields P s
  | .fin s q =>
    if geTwoPow q ((P.bias : Int) + 1) then infinityFields P s
    else if geTwoPow q (1 - (P.bias : Int)) then normalFields P s q
    else subnormalFields P s q

end Sys2Proof.Machine
end

