-- ==== Sys2Proof/Machine/Operands.lean ====
section
/-! DEFINITION. Operand assembly from the ports (R39, R40), the value word in both directions (R41 to R43), and the
packed form (R45). -/

namespace Sys2Proof.Machine

open Sys2Proof

/-- A padding bit of the selected precision is 1 (R39, R53): `exp_in[10:8]` or `man_in[51:23]` for precision 32; for
precision 64 there is no padding. -/
def paddingSet (P : Precision) (e : ExpPort) (m : ManPort) : Bool :=
  match P with
  | .p32 => e.extractLsb' 8 3 != 0#3 || m.extractLsb' 23 29 != 0#29
  | .p64 => false

/-- The fields on the ports (R40): `e = exp_in[E-1:0]` and `m = man_in[M-1:0]` as unsigned integers. -/
def fieldsOfPorts (P : Precision) (s : SignBit) (e : ExpPort) (m : ManPort) : Fields :=
  { sign := s, e := (e.extractLsb' 0 P.E).toNat, m := (m.extractLsb' 0 P.M).toNat }

/-- The exponent port of a decode result, `zext_11(e)` (R15, R49). -/
def expPort (f : Fields) : ExpPort := BitVec.ofNat 11 f.e

/-- The mantissa port of a decode result, `zext_52(m)` (R15, R49). -/
def manPort (f : Fields) : ManPort := BitVec.ofNat 52 f.m

/-- The three fields of a value word (R41): sign bit 63, biased exponent bits 62:52, fraction bits 51:0. -/
def fieldsOfWord (w : ValueWord) : Fields :=
  { sign := w.extractLsb' 63 1, e := (w.extractLsb' 52 11).toNat, m := (w.extractLsb' 0 52).toNat }

/-- The value word of three fields (R41). -/
def wordOfFields (f : Fields) : ValueWord := f.sign ++ expPort f ++ manPort f

/-- `val64(w)`, the value a word denotes (R42): `encode_64` of the word's own fields. Every word is legal. -/
def val64 (w : ValueWord) : Val := encodeVal .p64 (fieldsOfWord w)

/-- `NAN_FRAC64`, the fraction of the NaN word an ENCODE command writes: 52 ones (R43; log entry 5). -/
def nanFrac64 : ManPort := 0xFFFFFFFFFFFFF#52

/-- `word64(v)`, the value word an ENCODE command writes (R43). For `Fin(s, q)` it is the word of the fields
`decode_64` gives: that word denotes `Fin(s, q)` for every `q` that `encode_32` or `encode_64` can produce (R54). The
spec gives `word64` no word for any other `q`, and no command applies it there (log entry 10). -/
def word64 : Val → ValueWord
  | .nan s => s ++ 0x7FF#11 ++ nanFrac64
  | .inf s => s ++ 0x7FF#11 ++ 0#52
  | .fin s q => wordOfFields (decodeVal .p64 (.fin s q))

/-- `pack_P(s, e, m) = s·2^(P-1) + e·2^M + m` (R45): a spelling of fields as one number, no port. For fields out of
range, which have no packed form, the same sum is taken (log entry 19). -/
def packFields (P : Precision) (f : Fields) : Nat :=
  f.sign.toNat * 2 ^ (P.totalBits - 1) + f.e * 2 ^ P.M + f.m

end Sys2Proof.Machine
end

