-- ==== Sys2Proof/Syntax.lean ====
section
/-! DEFINITION. The four commands with the operands they take from the ports (R36, R37). -/

namespace Sys2Proof

/-- A command as one line of the spec's spelling (R37), one constructor per row of the opcode table. Its operands are
the values of exactly the ports the command uses (R28), taken whole (R50); an unused port is no part of it. -/
inductive Instr where
  /-- `DEC32 v`: value to binary32 fields (R74). -/
  | dec32 (v : ValueWord)
  /-- `DEC64 v`: value to binary64 fields (R75). -/
  | dec64 (v : ValueWord)
  /-- `ENC32 s, e, m`: binary32 fields to value (R56); `e` and `m` are the whole ports, padding bits included. -/
  | enc32 (s : SignBit) (e : ExpPort) (m : ManPort)
  /-- `ENC64 s, e, m`: binary64 fields to value (R57). -/
  | enc64 (s : SignBit) (e : ExpPort) (m : ManPort)
  deriving DecidableEq, Repr

end Sys2Proof
end

