-- ==== Sys2Proof/WellFormed.lean ====
section
/-! DEFINITION. Well-formed commands: the operands have the bit lengths of the command's precision. -/

namespace Sys2Proof

/-- "given well-formed input bit lengths" (R52), "all already validated to be exactly E and M in length" (R53): a
field presented to ENC32 is longer than its precision allows when a bit of `exp_in[10:8]` or `man_in[51:23]` is 1
(R39). Every other command has no ill-formed operand (R47). An ill-formed ENC32 is still a command of the block: it
ends with the error `InvalidInput` (R100), which `Machine.execEnc32` gives it; log entry 18. -/
def Instr.WellFormed : Instr → Bool
  | .dec32 _ => true
  | .dec64 _ => true
  | .enc32 _ e m => e.extractLsb' 8 3 == 0#3 && m.extractLsb' 23 29 == 0#29
  | .enc64 _ _ _ => true

end Sys2Proof
end

