-- ==== Sys2Proof/Decode.lean ====
section
/-! DEFINITION. Reading a command from the input ports, and the port values that present one. The hardware has no
bytes and no memory (R25, R32): the words decoded are the values on `cmd` and on the operand ports at one edge. -/

namespace Sys2Proof

/-- The command presented on the ports (R35, R36, R28): `cmd[1]` is 0 for decode and 1 for encode, `cmd[0]` is 0 for
precision 32 and 1 for precision 64. Total: every value of `cmd` is a legal command. Ports the command ignores are not
read. -/
def decodeCommand (p : PortInputs) : Instr :=
  if p.cmd = 0b00#2 then .dec32 p.valIn
  else if p.cmd = 0b01#2 then .dec64 p.valIn
  else if p.cmd = 0b10#2 then .enc32 p.signIn p.expIn p.manIn
  else .enc64 p.signIn p.expIn p.manIn

/-- What a rising edge asks of the block (R122): "a sequence of steps, each a reset, a command, or an idle edge". -/
inductive Action where
  /-- `rst = 1` (R113) -/
  | reset
  /-- `rst = 0`, `start = 0` (R27) -/
  | idle
  /-- a sampling edge: `rst = 0`, `start = 1` (R27) -/
  | command (i : Instr)
  deriving DecidableEq, Repr

/-- The action of an edge: reset whatever `start` is (R114), a command when `start = 1`, else idle (R27). -/
def decodeEdge (p : PortInputs) : Action :=
  if p.rst then .reset
  else if p.start then .command (decodeCommand p)
  else .idle

/-- Why a number presents no command: `cmd` has two bits, and no other bit of an instruction exists (R34, R35). -/
inductive DecodeError where
  /-- the number does not fit the 2-bit command port -/
  | notACommandWord (w : Nat)
  deriving DecidableEq, Repr

/-- A number as a value of the 2-bit command port; rejected by name when it does not fit (log entry 15). -/
def fitCommandWord (w : Nat) : Except DecodeError CommandWord :=
  if w < 4 then .ok (BitVec.ofNat 2 w) else .error (.notACommandWord w)

/-- A sampling edge with a given command word and zeros on every operand port. -/
def samplingEdge (c : CommandWord) : PortInputs :=
  { rst := false, start := true, cmd := c, valIn := 0#64, signIn := 0#1, expIn := 0#11, manIn := 0#52 }

/-- The instruction read from the table's bits: the low `nbits` bits of `w` on the command port (which has two), the
operand ports zero. -/
def decodeTableWord (nbits w : Nat) : Option Instr :=
  match fitCommandWord (w % 2 ^ nbits) with
  | .ok c => some (decodeCommand (samplingEdge c))
  | .error _ => none

/-- The command word of an instruction (R36). -/
def Instr.commandWord : Instr → CommandWord
  | .dec32 _ => 0b00#2
  | .dec64 _ => 0b01#2
  | .enc32 _ _ _ => 0b10#2
  | .enc64 _ _ _ => 0b11#2

/-- The port values that present a command (R26, R36): its word on `cmd`, its operands on the ports it uses, zeros on
the ports it ignores. -/
def encodeCommand (i : Instr) : PortInputs :=
  match i with
  | .dec32 v => { samplingEdge i.commandWord with valIn := v }
  | .dec64 v => { samplingEdge i.commandWord with valIn := v }
  | .enc32 s e m => { samplingEdge i.commandWord with signIn := s, expIn := e, manIn := m }
  | .enc64 s e m => { samplingEdge i.commandWord with signIn := s, expIn := e, manIn := m }

/-- The port values of an action (R37, R112): reset drives `rst = 1`, idling holds `start = 0`. -/
def encodeEdge : Action → PortInputs
  | .reset => { samplingEdge 0b00#2 with rst := true, start := false }
  | .idle => { samplingEdge 0b00#2 with start := false }
  | .command i => encodeCommand i

end Sys2Proof
end

