-- ==== Sys2Proof/Machine/State.lean ====
section
/-! DEFINITION. The state of one FloatCodec as plain data, the state after reset, and the reasons a step or a port
read can stop. -/

namespace Sys2Proof.Machine

open Sys2Proof

/-- The output ports (R26). -/
inductive OutPort where
  | sign
  | exp
  | man
  | val
  | cls
  | status
  deriving DecidableEq, Repr

/-- The width of an output port (R26). -/
def OutPort.width : OutPort → Nat
  | .sign => 1
  | .exp => 11
  | .man => 52
  | .val => 64
  | .cls => 3
  | .status => 8

/-- The architectural state (R14), and the model's own `edges`.

A register that is `none` holds no defined value: the result parts that do not belong to the current outcome (R16),
and every register before the first reset after power-on (R115). No command reads a register (R13). -/
structure State where
  /-- `STATUS`, the status word (R17) -/
  status : Option (BitVec 8)
  /-- `R_SIGN`, sign bit of a decode result -/
  rSign : Option SignBit
  /-- `R_EXP`, exponent bits of a decode result -/
  rExp : Option ExpPort
  /-- `R_MAN`, mantissa bits of a decode result -/
  rMan : Option ManPort
  /-- `R_VAL`, value word of an encode result -/
  rVal : Option ValueWord
  /-- `R_CLS`, class code of the result (R44) -/
  rCls : Option (BitVec 3)
  /-- The model's own field: what the host drives on the input ports at the coming rising edges, first edge first
  (R26, R124; log entry 1). -/
  edges : List PortInputs
  deriving DecidableEq, Repr

/-- Nothing stops the block: "its step function is total: it never hangs, never blocks and never has no step, for any
input" (R109). The architecturally reported error `InvalidInput` is a next state (R103), so there is no fault to
raise. -/
inductive Fault where
  deriving DecidableEq, Repr

/-- Why an answer is refused. -/
inductive Refusal where
  /-- Raised by `exec` for an instruction without a meaning; every instruction of this model has one, so nothing
  raises it. Safe: the model stops. -/
  | notModelled (mnemonic : String)
  /-- Raised by `readPort` alone, for an output port whose register holds none: "treat a read of it as refused, never
  as zero" (R16, R115, V1, V2). No command and no step raises it. Safe: the model gives no value where the hardware
  drives an unspecified one. -/
  | portHoldsNone (port : OutPort)
  deriving DecidableEq, Repr

/-- Right after reset (R24, R113): `STATUS` is `0x00` and the five result registers hold none. No edge is coming until
the host presents one (log entry 1). -/
def State.reset : State :=
  { status := some 0x00#8, rSign := none, rExp := none, rMan := none, rVal := none, rCls := none, edges := [] }

/-- Power-on, before the first reset: "every register ... including STATUS is unspecified" (R115; log entry 4). -/
def State.powerOn : State :=
  { status := none, rSign := none, rExp := none, rMan := none, rVal := none, rCls := none, edges := [] }

end Sys2Proof.Machine
end

