-- ==== Sys2Proof/Machine/Ops.lean ====
section
/-! DEFINITION. The named operations over the state: the outcome of a command and how it is written to the registers
(R15), ending a command with an error (R103), reset (R113), taking the next edge, and reading an output port. -/

namespace Sys2Proof.Machine

open Sys2Proof

/-- The outcome of a command (R15). -/
inductive CmdOutcome where
  /-- left by DEC32, DEC64: precision, fields, class -/
  | fields (P : Precision) (f : Fields) (c : DecimalCase)
  /-- left by ENC32, ENC64: precision, value word, class -/
  | value (P : Precision) (w : ValueWord) (c : DecimalCase)
  /-- left by a command that raised an error -/
  | error (code : CodecError)
  deriving DecidableEq, Repr

/-- The outcome of a DECODE command on a value word (R78). -/
def decodeOutcome (P : Precision) (w : ValueWord) : CmdOutcome :=
  let f := decodeVal P (val64 w)
  .fields P f (classify P f.e f.m)

/-- The outcome of an ENCODE command on the field ports (R55): the padding check precedes everything (R104). -/
def encodeOutcome (P : Precision) (s : SignBit) (e : ExpPort) (m : ManPort) : CmdOutcome :=
  if paddingSet P e m then .error .invalidInput
  else
    let f := fieldsOfPorts P s e m
    .value P (word64 (encodeVal P f)) (classify P f.e f.m)

/-- `RES <- Fields(P, s, e, m, c)` and its status: done 1, err 0, code 0, kind 1 (R15, R78). -/
def writeFields (P : Precision) (f : Fields) (c : DecimalCase) (s : State) : State :=
  { s with
    status := some (statusWord 1#1 0#1 0#2 1#2 (precisionBit P))
    rSign := some f.sign
    rExp := some (expPort f)
    rMan := some (manPort f)
    rVal := none
    rCls := some (classCode c) }

/-- `RES <- Value(P, w, c)` and its status: done 1, err 0, code 0, kind 2 (R15, R55). -/
def writeValue (P : Precision) (w : ValueWord) (c : DecimalCase) (s : State) : State :=
  { s with
    status := some (statusWord 1#1 0#1 0#2 2#2 (precisionBit P))
    rSign := none
    rExp := none
    rMan := none
    rVal := some w
    rCls := some (classCode c) }

/-- Taking the one exceptional event of the block (R103): the command computes nothing, all five result registers
hold none, and the status is done 1, err 1, the error's code, kind 0, prec 0. Nothing is saved and control goes
nowhere (R106); coming back from an error is nothing, the next command is simply sampled. -/
def raiseError (code : CodecError) (s : State) : State :=
  { s with
    status := some (statusWord 1#1 1#1 (errorCode code) 0#2 0#1)
    rSign := none
    rExp := none
    rMan := none
    rVal := none
    rCls := none }

/-- `RES <- r`: the status and the whole result group at once; no part of an older outcome survives (R12, R15). -/
def writeOutcome (r : CmdOutcome) (s : State) : State :=
  match r with
  | .fields P f c => writeFields P f c s
  | .value P w c => writeValue P w c s
  | .error code => raiseError code s

/-- The registers after a rising edge with `rst = 1` (R113, R24). What the host drives at later edges is not the
block's to change. -/
def resetRegisters (s : State) : State := { State.reset with edges := s.edges }

/-- The ports at the coming rising edge, and the state in which that edge acts: the edge is taken from what is
coming. No edge is coming when the host presents no more (R20, R124). -/
def nextEdge (s : State) : Option (PortInputs × State) :=
  match s.edges with
  | [] => none
  | p :: rest => some (p, { s with edges := rest })

/-- Read a register on its output port; refused when it holds none (R16). -/
def held {w : Nat} (p : OutPort) : Option (BitVec w) → Except Refusal (BitVec w)
  | some x => .ok x
  | none => .error (.portHoldsNone p)

/-- What the host reads on an output port (R14, R26). Reading changes nothing (R29). -/
def readPort (p : OutPort) (s : State) : Except Refusal (BitVec p.width) :=
  match p with
  | .sign => held .sign s.rSign
  | .exp => held .exp s.rExp
  | .man => held .man s.rMan
  | .val => held .val s.rVal
  | .cls => held .cls s.rCls
  | .status => held .status s.status

/-- Present one more edge, before those already coming. -/
def presentEdge (p : PortInputs) (s : State) : State := { s with edges := p :: s.edges }

end Sys2Proof.Machine
end

