-- ==== Sys2Proof/Machine/DecodeFamily.lean ====
section
/-! DEFINITION. The decode family, value to bit fields: DEC32 and DEC64. -/

namespace Sys2Proof.Machine

open Sys2Proof

/-- DEC32 (R74): R78 with P = 32. No error for any input (R72); the sign, exponent and mantissa ports are no operand
(R28); no state is read (R13). -/
def execDec32 (v : ValueWord) (s : State) : Host.Outcome State Fault Refusal :=
  .next (writeOutcome (decodeOutcome .p32 v) s)

/-- DEC64 (R75): R78 with P = 64. No error for any input. -/
def execDec64 (v : ValueWord) (s : State) : Host.Outcome State Fault Refusal :=
  .next (writeOutcome (decodeOutcome .p64 v) s)

end Sys2Proof.Machine
end

