-- ==== Sys2Proof/Machine/EncodeFamily.lean ====
section
/-! DEFINITION. The encode family, bit fields to value: ENC32 and ENC64. -/

namespace Sys2Proof.Machine

open Sys2Proof

/-- ENC32 (R56): R55 with P = 32. When a padding bit of `exp_in` or `man_in` is 1 it ends with `InvalidInput`, which
is a next state (R100, R103). -/
def execEnc32 (sign : SignBit) (e : ExpPort) (m : ManPort) (s : State) : Host.Outcome State Fault Refusal :=
  .next (writeOutcome (encodeOutcome .p32 sign e m) s)

/-- ENC64 (R57): R55 with P = 64. No padding, no error. -/
def execEnc64 (sign : SignBit) (e : ExpPort) (m : ManPort) (s : State) : Host.Outcome State Fault Refusal :=
  .next (writeOutcome (encodeOutcome .p64 sign e m) s)

end Sys2Proof.Machine
end

