-- ==== Sys2Proof/Machine/Dispatch.lean ====
section
/-! DEFINITION. One arm per command (R36, R108: the four commands are all there are). -/

namespace Sys2Proof.Machine

open Sys2Proof

def exec (i : Instr) (s : State) : Host.Outcome State Fault Refusal :=
  match i with
  | .dec32 v => Sys2Proof.Machine.execDec32 v s
  | .dec64 v => Sys2Proof.Machine.execDec64 v s
  | .enc32 sign e m => Sys2Proof.Machine.execEnc32 sign e m s
  | .enc64 sign e m => Sys2Proof.Machine.execEnc64 sign e m s

end Sys2Proof.Machine
end

