-- ==== Sys2Proof/Machine/Step.lean ====
section
/-! DEFINITION. One step: one rising edge of `clk` (R27, R122), and placing an instruction at the next edge. -/

namespace Sys2Proof.Machine

open Sys2Proof

/-- One step. The coming edge is taken; at `rst = 1` the block resets whatever `start` is (R113, R114), at a sampling
edge it executes the command presented (R27), at an idle edge every register keeps its value (R27). When no edge is
coming nothing changes: "Between rising edges nothing changes" (R27; log entry 2). -/
def step (s : State) : Host.Outcome State Fault Refusal :=
  match nextEdge s with
  | none => .next s
  | some (p, t) =>
    match decodeEdge p with
    | .reset => .next (resetRegisters t)
    | .idle => .next t
    | .command i => exec i t

/-- The state with the instruction of the table's bits presented at the next edge, its operand ports zero (log
entry 15). A number that is no command word presents nothing. -/
def State.withFetchWord (s : State) (nbits w : Nat) : State :=
  match fitCommandWord (w % 2 ^ nbits) with
  | .ok c => presentEdge (samplingEdge c) s
  | .error _ => s

end Sys2Proof.Machine
end

