-- ==== Sys2Proof/Machine/BitForms.lean ====
section
/-! DEFINITION. The four commands on bits (R58, R59, R76, R77): "They add nothing; they are given so that a model can
be tested by evaluation and a hardware implementation can be checked against the abstract function". No meaning is
written with them. -/

namespace Sys2Proof.Machine

open Sys2Proof

/-- DEC32 on bits (R76): the exponent and mantissa ports for the word `w`. -/
def dec32Bits (w : ValueWord) : ExpPort × ManPort :=
  let X := (w.extractLsb' 52 11).toNat
  let F := w.extractLsb' 0 52
  if X = 2047 then (if F = 0#52 then (0xFF#11, 0#52) else (0xFF#11, 0x7FFFFF#52))
  else if 1151 ≤ X then (0xFF#11, 0#52)
  else if 897 ≤ X then (BitVec.ofNat 11 (X - 896), (F.extractLsb' 29 23).setWidth 52)
  else if 874 ≤ X then (0#11, BitVec.ofNat 52 ((2 ^ 52 + F.toNat) / 2 ^ (926 - X)))
  else (0#11, 0#52)

/-- DEC64 on bits (R77). -/
def dec64Bits (w : ValueWord) : ExpPort × ManPort :=
  let X := w.extractLsb' 52 11
  let F := w.extractLsb' 0 52
  if X = 2047#11 ∧ F ≠ 0#52 then (X, 0xFFFFFFFFFFFFF#52) else (X, F)

/-- ENC64 on bits (R58). -/
def enc64Bits (s : SignBit) (e : ExpPort) (m : ManPort) : ValueWord :=
  if e = 2047#11 ∧ m ≠ 0#52 then s ++ 0x7FF#11 ++ nanFrac64 else s ++ e ++ m

/-- ENC32 on bits (R59), for an in-range `e` (8 bits) and `m` (23 bits). -/
def enc32Bits (s : SignBit) (e : BitVec 8) (m : BitVec 23) : ValueWord :=
  if e = 255#8 then (if m = 0#23 then s ++ 0x7FF#11 ++ 0#52 else s ++ 0x7FF#11 ++ nanFrac64)
  else if e = 0#8 then
    if m = 0#23 then s ++ 0#63
    else
      let k := Nat.log2 m.toNat
      s ++ BitVec.ofNat 11 (k + 874) ++ BitVec.ofNat 52 ((m.toNat - 2 ^ k) * 2 ^ (52 - k))
  else s ++ BitVec.ofNat 11 (e.toNat + 896) ++ m ++ 0#29

end Sys2Proof.Machine
end

