-- ==== Sys2Proof/Machine/Reference.lean ====
section
/-! DEFINITION. The source's algorithm as loops (R63 to R71), with the normalisation as a function of its own over
signed rationals (R73). Each loop carries a count that bounds its rounds, so that it is structural; R71 gives the
bounds (log entry 16). -/

namespace Sys2Proof.Machine

open Sys2Proof

/-- The integer part's bits, least significant first, "by repeated division by 2" (R66). -/
def integerBits : Nat → Nat → List Bool
  | 0, _ => []
  | fuel + 1, n => if n = 0 then [] else (n % 2 == 1) :: integerBits fuel (n / 2)

/-- How the search for the leading fractional bit ended (R68): the remaining fraction, the exponent counter, and the
first bit of the buffer, which says whether the leading 1 was found. -/
structure SearchEnd where
  f : ℚ
  x : Int
  found : Bool

/-- The search for the leading fractional bit by repeated doubling (R68). -/
def searchLeading (bias : Nat) : Nat → ℚ → Int → SearchEnd
  | 0, f, x => { f := f, x := x, found := false }
  | fuel + 1, f, x =>
    if 1 ≤ 2 * f then { f := 2 * f - 1, x := x, found := true }
    else if x - 1 = -(bias : Int) then { f := 2 * f, x := -(bias : Int), found := false }
    else searchLeading bias fuel (2 * f) (x - 1)

/-- The next bits of a fraction by "doubling-and-subtract", most significant first (R69, R48). -/
def fractionBits : Nat → ℚ → List Bool
  | 0, _ => []
  | n + 1, f => if 1 ≤ 2 * f then true :: fractionBits n (2 * f - 1) else false :: fractionBits n (2 * f)

/-- The integer whose binary digits, most significant first, are a list of bits (R71). -/
def bitsValue (bits : List Bool) : Nat := bits.foldl (fun a b => 2 * a + (if b then 1 else 0)) 0

/-- The mantissa of a buffer: its first M+1 bits, the first of them dropped (R69, R71). -/
def windowMantissa (P : Precision) (buf : List Bool) : Nat := bitsValue ((buf.take (P.M + 1)).drop 1)

/-- The private normalisation step (R66 to R70) as a function of a signed rational: biased exponent and mantissa. It
"fails (reports an error, does not guess)" on a negative argument (R73). -/
def normalise (P : Precision) (x : ℚ) : Except CodecError (Nat × Nat) :=
  if x < 0 then .error .internalNegative
  else
    let n := ⌊x⌋₊
    let f := x - n
    let ibits := integerBits (Nat.log2 n + 1) n
    let ex : Int := -1 + (ibits.length : Int)
    if (P.emax : Int) ≤ ex + P.bias then .ok (P.emax, 0)
    else if ibits = [] then
      let r := searchLeading P.bias P.bias f ex
      .ok ((r.x + P.bias).toNat, windowMantissa P (r.found :: fractionBits P.M r.f))
    else
      let buf := ibits.reverse
      .ok ((ex + P.bias).toNat, windowMantissa P (buf ++ fractionBits (P.M + 1 - buf.length) f))

/-- `decode_ref_P(v)` (R71): the sign, then NaN, then infinity, then the normalisation of the magnitude (R61). -/
def decodeRef (P : Precision) : Val → Except CodecError Fields
  | .nan s => .ok (nanFields P s)
  | .inf s => .ok (infinityFields P s)
  | .fin s q =>
    match normalise P (q : ℚ) with
    | .ok (e, m) => .ok { sign := s, e := e, m := m }
    | .error c => .error c

end Sys2Proof.Machine
end

