-- ==== Sys2Proof/Machine/Platform.lean ====
section
/-! DEFINITION. Several instances of the block side by side (R31, R110). -/

namespace Sys2Proof.Machine

open Sys2Proof

/-- Any number of instances, which share nothing: no state, no port, no constant that can change (R110). An instance
has no identifier of its own; its place in the list is the platform's. -/
structure Platform where
  blocks : List State
  deriving DecidableEq, Repr

/-- A rising edge on the clock of the k-th instance alone (R31: "if the platform wishes, separate clocks"). -/
def Platform.stepAt (k : Nat) (p : Platform) : Platform :=
  match p.blocks[k]? with
  | none => p
  | some s =>
    match step s with
    | .next t => { blocks := p.blocks.set k t }
    | .fault _ => p
    | .refused _ => p

end Sys2Proof.Machine
end

