-- ==== Sys2Proof/Safety.lean ====
section
/-! DEFINITION. What claims are stated with: the registers of two states compared, the last outcome as R23 sees it,
the invariant of reachable states (R17), and a run of edges (R124). -/

namespace Sys2Proof.Machine

open Sys2Proof

/-- The six registers of R14 hold the same. -/
def SameRegisters (s t : State) : Prop :=
  s.status = t.status ∧ s.rSign = t.rSign ∧ s.rExp = t.rExp ∧ s.rMan = t.rMan ∧ s.rVal = t.rVal ∧ s.rCls = t.rCls

/-- The outcome of a command, a function of its own operands and of nothing else (R13). -/
def outcomeOf : Instr → CmdOutcome
  | .dec32 v => decodeOutcome .p32 v
  | .dec64 v => decodeOutcome .p64 v
  | .enc32 s e m => encodeOutcome .p32 s e m
  | .enc64 s e m => encodeOutcome .p64 s e m

/-- All five result registers hold none (R16). -/
def NoResult (s : State) : Prop :=
  s.rSign = none ∧ s.rExp = none ∧ s.rMan = none ∧ s.rVal = none ∧ s.rCls = none

/-- The precision a status word records (R17). -/
def statusPrecision (w : BitVec 8) : Precision := if statusPrec w = 1#1 then .p64 else .p32

/-- The result registers hold fields of the precision P: sign, exponent, mantissa with zero padding (R49) and the
class of those fields (R98); no value (R15). -/
def HoldsFields (P : Precision) (s : State) : Prop :=
  ∃ b e m, s.rSign = some b ∧ s.rExp = some e ∧ s.rMan = some m ∧ s.rVal = none ∧ paddingSet P e m = false ∧
    s.rCls = some (classCode (classify P e.toNat m.toNat))

/-- The result registers hold a value word and one of the five class codes (R44); no fields (R15). -/
def HoldsValue (s : State) : Prop :=
  ∃ w c, s.rSign = none ∧ s.rExp = none ∧ s.rMan = none ∧ s.rVal = some w ∧ s.rCls = some (classCode c)

/-- The result group agrees with `STATUS.kind`: "Which parts hold a value is decided by STATUS.kind alone" (R16). -/
def ResultsAgree (w : BitVec 8) (s : State) : Prop :=
  (statusKind w = 0#2 → NoResult s) ∧
  (statusKind w = 1#2 → HoldsFields (statusPrecision w) s) ∧
  (statusKind w = 2#2 → HoldsValue s)

/-- What R17 says of `STATUS` in every reachable state, with the codes that are never produced (R46, R47) and the
precision of the one error (R103). -/
def StatusLegal (w : BitVec 8) : Prop :=
  statusReserved w = 0#1 ∧ statusKind w ≠ 3#2 ∧ statusCode w ≠ 2#2 ∧ statusCode w ≠ 3#2 ∧
  (statusErr w = 1#1 → statusDone w = 1#1 ∧ statusKind w = 0#2 ∧ statusCode w ≠ 0#2 ∧ statusPrec w = 0#1) ∧
  (statusErr w = 0#1 → statusCode w = 0#2) ∧
  (statusDone w = 0#1 → statusErr w = 0#1 ∧ statusKind w = 0#2 ∧ statusPrec w = 0#1) ∧
  (statusDone w = 1#1 → statusErr w = 0#1 → statusKind w = 1#2 ∨ statusKind w = 2#2)

/-- The invariant: before the first reset nothing holds a value (R115); afterwards the status is legal and the result
group agrees with it. -/
def Inv (s : State) : Prop :=
  match s.status with
  | none => NoResult s
  | some w => StatusLegal w ∧ ResultsAgree w s

/-- The state as R23 would hold it, read off the registers: none after reset (and before it), the last outcome after
a command. -/
def lastOutcome (s : State) : Option CmdOutcome :=
  match s.status with
  | none => none
  | some w =>
    if statusDone w = 0#1 then none
    else if statusErr w = 1#1 then some (.error .invalidInput)
    else
      match s.rSign, s.rExp, s.rMan, s.rVal, s.rCls with
      | some b, some e, some m, none, some c =>
        (classOfCode c).map fun k => .fields (statusPrecision w) { sign := b, e := e.toNat, m := m.toNat } k
      | none, none, none, some v, some c => (classOfCode c).map fun k => .value (statusPrecision w) v k
      | _, _, _, _, _ => none

/-- The registers as functions of R23's `last`. -/
def registersOf (last : Option CmdOutcome) (s : State) : State :=
  match last with
  | none => resetRegisters s
  | some r => writeOutcome r s

/-- R23's step function on `last`: independent of `last` when a command or a reset is taken, `last` itself
otherwise. -/
def lastStep (last : Option CmdOutcome) (p : PortInputs) : Option CmdOutcome :=
  match decodeEdge p with
  | .reset => none
  | .idle => last
  | .command i => some (outcomeOf i)

/-- A run of edges from a state (R124): the edges are what is coming, and the machine takes one step for each. -/
def runEdges (s : State) (l : List PortInputs) : Host.Outcome State Fault Refusal :=
  Host.Core.run Sys2Proof.core l.length { s with edges := l }

/-- Fields of a NaN (R44): EMAX with a non-zero mantissa. -/
def NanFields (P : Precision) (f : Fields) : Prop := f.e = P.emax ∧ f.m ≠ 0

/-- The magnitudes representable at precision P, as R93 lists them. -/
def Representable (P : Precision) (q : ℚ≥0) : Prop :=
  q = 0 ∨
  (∃ m : Nat, 0 < m ∧ m < 2 ^ P.M ∧ q = (m : ℚ≥0) * (2 : ℚ≥0) ^ (1 - (P.bias : ℤ) - (P.M : ℤ))) ∨
  (∃ (k : ℤ) (m : Nat), 1 - (P.bias : ℤ) ≤ k ∧ k ≤ (P.bias : ℤ) ∧ m < 2 ^ P.M ∧
    q = (2 : ℚ≥0) ^ k * (1 + (m : ℚ≥0) / (2 : ℚ≥0) ^ P.M))

/-- The same value with a given sign (R97). -/
def withSign (s : SignBit) : Val → Val
  | .nan _ => .nan s
  | .inf _ => .inf s
  | .fin _ q => .fin s q

/-- The biased exponent field of a value word (R41). -/
def wordExp (w : ValueWord) : Nat := (w.extractLsb' 52 11).toNat

/-- The fraction field of a value word (R41). -/
def wordFrac (w : ValueWord) : BitVec 52 := w.extractLsb' 0 52

/-- The sign bit of a value word (R41). -/
def wordSign (w : ValueWord) : SignBit := w.extractLsb' 63 1

/-- A NaN word (R42). -/
def NanWord (w : ValueWord) : Prop := wordExp w = 2047 ∧ wordFrac w ≠ 0#52

end Sys2Proof.Machine
end

