-- ==== Sys2Proof/Certificates/Slice0/Obligations.lean ====
section
/-! DEFINITION. The statements for the provers, family by family: the port layer, the commands, the abstract layer,
the laws that connect the two directions. A statement whose docstring says "derived" rests on an inference the spec
marks as its own, or on a choice of the model. -/

open Sys2Proof Sys2Proof.Machine

/-! ### Commands on the port -/

/-- Derived. First clause (30_encoding.md R36, with R35 and R37): the four values of `cmd` are DEC32, DEC64, ENC32,
ENC64, each with the operand ports it uses; every value is a legal command. Second clause: the words of the opcode
table, operand ports zero, are read so whether they are given in 2 bits or in a whole byte. That clause is the model's
choice (log entry 15, DESIGN CHOICE) and no rule of the spec. -/
def Obligations.EveryCommandWordIsOneOfTheFourCommands : Prop :=
  (∀ p : PortInputs,
    (p.cmd = 0b00#2 → decodeCommand p = .dec32 p.valIn) ∧
    (p.cmd = 0b01#2 → decodeCommand p = .dec64 p.valIn) ∧
    (p.cmd = 0b10#2 → decodeCommand p = .enc32 p.signIn p.expIn p.manIn) ∧
    (p.cmd = 0b11#2 → decodeCommand p = .enc64 p.signIn p.expIn p.manIn)) ∧
  (∀ n, n = 2 ∨ n = 8 →
    decodeTableWord n 0x0 = some (.dec32 0#64) ∧ decodeTableWord n 0x1 = some (.dec64 0#64) ∧
    decodeTableWord n 0x2 = some (.enc32 0#1 0#11 0#52) ∧ decodeTableWord n 0x3 = some (.enc64 0#1 0#11 0#52))

/-- Derived (00_scope.md R10, 30_encoding.md R35 to R37). A list of actions is read back, every operand bit kept, from
the edges that present it; and an edge is read as a command exactly when it is a sampling edge with that command's word
and that command's operands on the ports it uses. -/
def Obligations.EdgesAndActionsRoundTrip : Prop :=
  (∀ l : List Action, (l.map encodeEdge).map decodeEdge = l) ∧
  (∀ (p : PortInputs) (i : Instr), decodeEdge p = .command i ↔
    p.rst = false ∧ p.start = true ∧ p.cmd = i.commandWord ∧
    ∀ v sg e m, (i = .dec32 v ∨ i = .dec64 v → p.valIn = v) ∧
      (i = .enc32 sg e m ∨ i = .enc64 sg e m → p.signIn = sg ∧ p.expIn = e ∧ p.manIn = m))

/-! ### Steps, reset, runs -/

/-- R24: what reset leaves. -/
def Obligations.ResetLeavesZeroStatusAndNoResult : Prop :=
  (∃ w, State.reset.status = some w ∧ statusDone w = 0#1 ∧ statusErr w = 0#1 ∧ statusCode w = 0#2 ∧
    statusKind w = 0#2 ∧ statusPrec w = 0#1 ∧ statusReserved w = 0#1) ∧
  NoResult State.reset ∧ lastOutcome State.reset = none

/-- R27: the command presented is executed at a sampling edge, an idle edge changes no register, reset wins. What a
step does around `exec`: it takes the edge out of what is coming. -/
def Obligations.StepRunsTheCommandAtASamplingEdge : Prop :=
  ∀ (s : State) (p : PortInputs) (rest : List PortInputs), s.edges = p :: rest →
    (p.rst = false → p.start = true → step s = exec (decodeCommand p) { s with edges := rest }) ∧
    (p.rst = false → p.start = false → step s = .next { s with edges := rest }) ∧
    (p.rst = true → step s = .next { State.reset with edges := rest })

/-- R113: every edge with `rst = 1` leaves the reset state, and nothing else returns `STATUS.done` to 0. -/
def Obligations.ResetEdgeIsTheOnlyWayBackToDoneZero : Prop :=
  (∀ (s : State) (p : PortInputs) (rest : List PortInputs), s.edges = p :: rest → p.rst = true →
    step s = .next ⟨some 0x00#8, none, none, none, none, none, rest⟩ ∧
    lastOutcome ⟨some 0x00#8, none, none, none, none, none, rest⟩ = none) ∧
  (∀ (s t : State) (w w' : BitVec 8), step s = .next t → s.status = some w → statusDone w = 1#1 →
    t.status = some w' → statusDone w' = 0#1 → ∃ p rest, s.edges = p :: rest ∧ p.rst = true)

/-- R114: every other input is ignored at a reset edge; one edge is enough and more change nothing; the next edge with
`start = 1` is an ordinary sampling edge; and no command needs a reset before it. -/
def Obligations.ResetHasPriorityAndOneEdgeIsEnough : Prop :=
  (∀ (s : State) (p q : PortInputs) (rest : List PortInputs), p.rst = true → q.rst = true →
    step { s with edges := p :: rest } = step { s with edges := q :: rest }) ∧
  (∀ (p : PortInputs) (rest : List PortInputs), p.rst = true →
    step { State.reset with edges := p :: rest } = .next { State.reset with edges := rest }) ∧
  (∀ (s : State) (p q : PortInputs) (rest : List PortInputs), s.edges = p :: q :: rest → p.rst = true →
    q.rst = false → q.start = true →
    ∃ t, step s = .next t ∧ step t = exec (decodeCommand q) { State.reset with edges := rest }) ∧
  (∀ (i : Instr) (s : State), ∃ t u, exec i s = .next t ∧ exec i State.reset = .next u ∧ SameRegisters t u)

/-- Derived (60_exceptions.md R109): every step has a next state, and a command ends with `Fields` (DEC32, DEC64),
`Value` (ENC32, ENC64) or `InvalidInput` (ENC32), nothing else. -/
def Obligations.EveryStepHasANextStateAndCommandsEndOnlyAsListed : Prop :=
  (∀ s : State, ∃ t, step s = .next t) ∧
  (∀ (v : ValueWord) (s : State), ∃ t f c, exec (.dec32 v) s = .next t ∧ lastOutcome t = some (.fields .p32 f c)) ∧
  (∀ (v : ValueWord) (s : State), ∃ t f c, exec (.dec64 v) s = .next t ∧ lastOutcome t = some (.fields .p64 f c)) ∧
  (∀ (sg : SignBit) (e : ExpPort) (m : ManPort) (s : State), ∃ t, exec (.enc32 sg e m) s = .next t ∧
    ((∃ w c, lastOutcome t = some (.value .p32 w c)) ∨ lastOutcome t = some (.error .invalidInput))) ∧
  (∀ (sg : SignBit) (e : ExpPort) (m : ManPort) (s : State), ∃ t w c, exec (.enc64 sg e m) s = .next t ∧
    lastOutcome t = some (.value .p64 w c))

/-- R28: a port a command does not use neither affects the outcome nor is validated. -/
def Obligations.IgnoredPortsDoNotAffectTheStep : Prop :=
  ∀ (s : State) (p q : PortInputs) (rest : List PortInputs),
    p.rst = false → q.rst = false → p.start = true → q.start = true → p.cmd = q.cmd →
    (p.cmd = 0b00#2 ∨ p.cmd = 0b01#2 → p.valIn = q.valIn →
      step { s with edges := p :: rest } = step { s with edges := q :: rest } ∧
      ∃ t w, step { s with edges := p :: rest } = .next t ∧ t.status = some w ∧ statusErr w = 0#1) ∧
    (p.cmd = 0b10#2 ∨ p.cmd = 0b11#2 → p.signIn = q.signIn → p.expIn = q.expIn → p.manIn = q.manIn →
      step { s with edges := p :: rest } = step { s with edges := q :: rest })

/-- R13: the outcome of a command is a function of its own inputs; no earlier command, register or status word
matters. -/
def Obligations.OutcomeIsIndependentOfTheState : Prop :=
  ∀ (i : Instr) (s s' : State), ∃ t t', exec i s = .next t ∧ exec i s' = .next t' ∧ SameRegisters t t'

/-- Derived (10_state.md R14, R15, R22; the field is the model's, log entry 1): the frame of DEC32, DEC64, ENC32,
ENC64. Each rewrites all six registers and changes nothing else; a step takes at most one edge. Its last clause is the
model's choice (log entry 2), from R20 "a sequence of commands is over when the host presents no more" and R27
"Between rising edges nothing changes". -/
def Obligations.CommandsChangeRegistersOnlyAndAStepTakesOneEdge : Prop :=
  (∀ (i : Instr) (s t : State), exec i s = .next t → t.edges = s.edges) ∧
  (∀ s t : State, step s = .next t → t.edges = s.edges.drop 1) ∧
  (∀ s : State, s.edges = [] → step s = .next s)

/-- Derived (20_memory.md R30): after the last sampling edge of a run the registers hold exactly the outcome of the
command sampled there, whatever edges came before and whatever the registers held. -/
def Obligations.LastCommandDecidesTheRegisters : Prop :=
  ∀ (s : State) (l : List PortInputs) (p : PortInputs), p.rst = false → p.start = true →
    ∃ t u, runEdges s (l ++ [p]) = .next t ∧ exec (decodeCommand p) State.reset = .next u ∧
      SameRegisters t u ∧ t.edges = []

/-! ### The invariant and R23's view -/

/-- Derived (10_state.md R17, R24; 70_reset_and_hazards.md R115): the invariant holds at reset and before it. -/
def Obligations.ResetAndPowerOnMeetTheInvariant : Prop := Inv State.reset ∧ Inv State.powerOn

/-- Derived (10_state.md R17, "Invariants that hold in every reachable state", and R15, R16, R46, R47, R49, R98):
every step keeps the invariant, from every state that meets it. -/
def Obligations.EveryStepKeepsTheInvariant : Prop :=
  ∀ s t : State, Inv s → step s = .next t → Inv t

/-- Derived (10_state.md R23): the registers are functions of `last`. -/
def Obligations.RegistersAreFunctionsOfTheLastOutcome : Prop :=
  ∀ (s : State) (w : BitVec 8), Inv s → s.status = some w → registersOf (lastOutcome s) s = s

/-- Derived (10_state.md R23): the machine refines `step(last, inputs) = last'`. -/
def Obligations.StepRefinesTheLastOutcomeMachine : Prop :=
  ∀ (s : State) (p : PortInputs) (rest : List PortInputs), Inv s → s.edges = p :: rest →
    ∃ t, step s = .next t ∧ Inv t ∧ lastOutcome t = lastStep (lastOutcome s) p

/-- Derived (70_reset_and_hazards.md R124 over 10_state.md R23, and R17 "every reachable state"): every run from reset
ends, in a state that meets the invariant, and its end is `last` folded over its edges. -/
def Obligations.RunRefinesTheLastOutcomeMachine : Prop :=
  ∀ l : List PortInputs, ∃ t, runEdges State.reset l = .next t ∧ Inv t ∧ t.edges = [] ∧
    lastOutcome t = l.foldl lastStep none

/-! ### Status word, ports, errors -/

/-- Derived (10_state.md, the table of R17): the fields of the status word, bit by bit. -/
def Obligations.StatusWordHasItsFieldsWhereTheTablePutsThem : Prop :=
  ∀ (d e : BitVec 1) (c k : BitVec 2) (p : BitVec 1),
    statusDone (statusWord d e c k p) = d ∧ statusErr (statusWord d e c k p) = e ∧
    statusCode (statusWord d e c k p) = c ∧ statusKind (statusWord d e c k p) = k ∧
    statusPrec (statusWord d e c k p) = p ∧ statusReserved (statusWord d e c k p) = 0#1 ∧
    (statusWord d e c k p).toNat = d.toNat + 2 * e.toNat + 4 * c.toNat + 16 * k.toNat + 64 * p.toNat

/-- Derived (10_state.md R16, R17): which output ports may be read is decided by `STATUS.kind` alone. -/
def Obligations.PortsReadableAreDecidedByKind : Prop :=
  ∀ (s : State) (w : BitVec 8), Inv s → s.status = some w →
    readPort .status s = .ok w ∧
    ((∃ x, readPort .sign s = .ok x) ↔ statusKind w = 1#2) ∧
    ((∃ x, readPort .exp s = .ok x) ↔ statusKind w = 1#2) ∧
    ((∃ x, readPort .man s = .ok x) ↔ statusKind w = 1#2) ∧
    ((∃ x, readPort .val s = .ok x) ↔ statusKind w = 2#2) ∧
    ((∃ x, readPort .cls s = .ok x) ↔ statusKind w = 1#2 ∨ statusKind w = 2#2)

/-- Derived (70_reset_and_hazards.md R120, R115 and 10_state.md R16): the ports that hold none after a DECODE, an
ENCODE, an error and a reset, and that a read of one is refused; before the first reset a read of every port is. -/
def Obligations.PortsThatHoldNoneAreRefused : Prop :=
  (∀ (v : ValueWord) (s t : State), exec (.dec32 v) s = .next t ∨ exec (.dec64 v) s = .next t →
    readPort .val t = .error (.portHoldsNone .val)) ∧
  (∀ (sg : SignBit) (e : ExpPort) (m : ManPort) (s t : State),
    exec (.enc32 sg e m) s = .next t ∨ exec (.enc64 sg e m) s = .next t →
    readPort .sign t = .error (.portHoldsNone .sign) ∧ readPort .exp t = .error (.portHoldsNone .exp) ∧
    readPort .man t = .error (.portHoldsNone .man)) ∧
  (∀ (sg : SignBit) (e : ExpPort) (m : ManPort) (s t : State), paddingSet .p32 e m = true →
    exec (.enc32 sg e m) s = .next t → ∀ p : OutPort, p ≠ .status → readPort p t = .error (.portHoldsNone p)) ∧
  (∀ p : OutPort, p ≠ .status → readPort p State.reset = .error (.portHoldsNone p)) ∧
  (∀ p : OutPort, readPort p State.powerOn = .error (.portHoldsNone p))

/-- R103: the state an erroneous ENC32 leaves; the outcome that was in the registers before is gone. -/
def Obligations.InvalidInputLeavesErrorStatusAndNoResult : Prop :=
  ∀ (sg : SignBit) (e : ExpPort) (m : ManPort) (s : State),
    e.extractLsb' 8 3 ≠ 0#3 ∨ m.extractLsb' 23 29 ≠ 0#29 →
    exec (.enc32 sg e m) s = .next
      { s with status := some (statusWord 1#1 1#1 1#2 0#2 0#1), rSign := none, rExp := none, rMan := none,
               rVal := none, rCls := none }

/-- R100: `InvalidInput` is raised by ENC32 only, exactly on a non-zero padding bit, it is the only error, its code is
1, and it records nothing further. -/
def Obligations.OnlyEnc32WithPaddingRaisesAnError : Prop :=
  (∀ (i : Instr) (s t : State), exec i s = .next t → ∃ w, t.status = some w ∧
    (statusErr w = 1#1 ↔
      ∃ sg e m, i = .enc32 sg e m ∧ (e.extractLsb' 8 3 ≠ 0#3 ∨ m.extractLsb' 23 29 ≠ 0#29)) ∧
    (statusErr w = 1#1 → statusCode w = 1#2) ∧ (statusErr w = 0#1 → statusCode w = 0#2)) ∧
  (∀ (i j : Instr) (s s' t t' : State) (w w' : BitVec 8), exec i s = .next t → exec j s' = .next t' →
    t.status = some w → t'.status = some w' → statusErr w = 1#1 → statusErr w' = 1#1 → SameRegisters t t')

/-! ### The commands -/

/-- R78 (DEC32 of R74, DEC64 of R75): the registers and status after a DECODE command. -/
def Obligations.DecodeCommandsWriteTheFieldsOfTheValue : Prop :=
  ∀ (v : ValueWord) (s : State),
    (exec (.dec32 v) s =
      let f := decodeVal .p32 (val64 v)
      .next { s with status := some (statusWord 1#1 0#1 0#2 1#2 0#1), rSign := some f.sign,
                     rExp := some (BitVec.ofNat 11 f.e), rMan := some (BitVec.ofNat 52 f.m), rVal := none,
                     rCls := some (classCode (classify .p32 f.e f.m)) }) ∧
    (exec (.dec64 v) s =
      let f := decodeVal .p64 (val64 v)
      .next { s with status := some (statusWord 1#1 0#1 0#2 1#2 1#1), rSign := some f.sign,
                     rExp := some (BitVec.ofNat 11 f.e), rMan := some (BitVec.ofNat 52 f.m), rVal := none,
                     rCls := some (classCode (classify .p64 f.e f.m)) })

/-- R55 (ENC32 of R56, ENC64 of R57): the registers and status after an ENCODE command. -/
def Obligations.EncodeCommandsWriteTheValueOfTheFields : Prop :=
  ∀ (sg : SignBit) (e : ExpPort) (m : ManPort) (s : State),
    (e.extractLsb' 8 3 = 0#3 → m.extractLsb' 23 29 = 0#29 → exec (.enc32 sg e m) s =
      let f : Fields := { sign := sg, e := (e.extractLsb' 0 8).toNat, m := (m.extractLsb' 0 23).toNat }
      .next { s with status := some (statusWord 1#1 0#1 0#2 2#2 0#1), rSign := none, rExp := none, rMan := none,
                     rVal := some (word64 (encodeVal .p32 f)), rCls := some (classCode (classify .p32 f.e f.m)) }) ∧
    (e.extractLsb' 8 3 ≠ 0#3 ∨ m.extractLsb' 23 29 ≠ 0#29 → exec (.enc32 sg e m) s =
      .next { s with status := some (statusWord 1#1 1#1 1#2 0#2 0#1), rSign := none, rExp := none, rMan := none,
                     rVal := none, rCls := none }) ∧
    (exec (.enc64 sg e m) s =
      let f : Fields := { sign := sg, e := e.toNat, m := m.toNat }
      .next { s with status := some (statusWord 1#1 0#1 0#2 2#2 1#1), rSign := none, rExp := none, rMan := none,
                     rVal := some (word64 (encodeVal .p64 f)), rCls := some (classCode (classify .p64 f.e f.m)) })

/-- Derived (41_decode.md R76): DEC32 is its form on bits. -/
def Obligations.Dec32IsItsFormOnBits : Prop :=
  ∀ (v : ValueWord) (s : State), exec (.dec32 v) s =
    .next { s with status := some 0x11#8, rSign := some (v.extractLsb' 63 1), rExp := some (dec32Bits v).1,
                   rMan := some (dec32Bits v).2, rVal := none,
                   rCls := some (classCode (classify .p32 (dec32Bits v).1.toNat (dec32Bits v).2.toNat)) }

/-- Derived (41_decode.md R77): DEC64 is its form on bits. -/
def Obligations.Dec64IsItsFormOnBits : Prop :=
  ∀ (v : ValueWord) (s : State), exec (.dec64 v) s =
    .next { s with status := some 0x51#8, rSign := some (v.extractLsb' 63 1), rExp := some (dec64Bits v).1,
                   rMan := some (dec64Bits v).2, rVal := none,
                   rCls := some (classCode (classify .p64 (dec64Bits v).1.toNat (dec64Bits v).2.toNat)) }

/-- Derived (40_encode.md R59): ENC32 is its form on bits, for every in-range exponent and mantissa. -/
def Obligations.Enc32IsItsFormOnBits : Prop :=
  ∀ (sg : SignBit) (e : BitVec 8) (m : BitVec 23) (s : State),
    exec (.enc32 sg (e.setWidth 11) (m.setWidth 52)) s =
      .next { s with status := some 0x21#8, rSign := none, rExp := none, rMan := none,
                     rVal := some (enc32Bits sg e m), rCls := some (classCode (classify .p32 e.toNat m.toNat)) }

/-- Derived (40_encode.md R58): ENC64 is its form on bits. -/
def Obligations.Enc64IsItsFormOnBits : Prop :=
  ∀ (sg : SignBit) (e : ExpPort) (m : ManPort) (s : State),
    exec (.enc64 sg e m) s =
      .next { s with status := some 0x61#8, rSign := none, rExp := none, rMan := none,
                     rVal := some (enc64Bits sg e m), rCls := some (classCode (classify .p64 e.toNat m.toNat)) }

/-- R63: the sign of a decode result is the sign bit of the value, for every value and every input word, NaN
included (the spec's decision D7; log entry 6). -/
def Obligations.DecodeCopiesTheSignBit : Prop :=
  (∀ (P : Precision) (s : SignBit) (q : ℚ≥0), (decodeVal P (.nan s)).sign = s ∧ (decodeVal P (.inf s)).sign = s ∧
    (decodeVal P (.fin s q)).sign = s) ∧
  (∀ (v : ValueWord) (s : State), ∃ t u, exec (.dec32 v) s = .next t ∧ exec (.dec64 v) s = .next u ∧
    t.rSign = some (v.extractLsb' 63 1) ∧ u.rSign = some (v.extractLsb' 63 1))

/-- Derived (40_encode.md R60): the sign of an encode result is `sign_in`, zero and NaN included. -/
def Obligations.EncodeCopiesTheSignBit : Prop :=
  ∀ (sg : SignBit) (e : ExpPort) (m : ManPort) (s : State),
    (∃ t w, exec (.enc64 sg e m) s = .next t ∧ t.rVal = some w ∧ w.extractLsb' 63 1 = sg) ∧
    (paddingSet .p32 e m = false →
      ∃ t w, exec (.enc32 sg e m) s = .next t ∧ t.rVal = some w ∧ w.extractLsb' 63 1 = sg)

/-- R49: DEC32 writes zero padding, its ports read as the numbers e and m, and they fed back unchanged to ENC32 raise no
error. -/
def Obligations.Dec32PadsItsFieldsWithZeros : Prop :=
  ∀ (v : ValueWord) (s : State), ∃ t e m, exec (.dec32 v) s = .next t ∧ t.rExp = some e ∧ t.rMan = some m ∧
    e.extractLsb' 8 3 = 0#3 ∧ m.extractLsb' 23 29 = 0#29 ∧
    e.toNat = (decodeVal .p32 (val64 v)).e ∧ m.toNat = (decodeVal .p32 (val64 v)).m ∧
    ∀ sg, ∃ u w, exec (.enc32 sg e m) t = .next u ∧ u.status = some w ∧ statusErr w = 0#1

/-! ### The encoder -/

/-- R51: the encoder's five cases, in the spec's formulas. -/
def Obligations.EncodeIsTheFiveCaseFunction : Prop :=
  ∀ (P : Precision) (s : SignBit) (e m : Nat), e ≤ P.emax → m < 2 ^ P.M →
    (e = 0 → m = 0 → encodeVal P ⟨s, e, m⟩ = .fin s 0) ∧
    (e = 0 → m ≠ 0 → encodeVal P ⟨s, e, m⟩ =
      .fin s ((2 : ℚ≥0) ^ (1 - (P.bias : ℤ)) * ((m : ℚ≥0) / (2 : ℚ≥0) ^ P.M))) ∧
    (e = P.emax → m = 0 → encodeVal P ⟨s, e, m⟩ = .inf s) ∧
    (e = P.emax → m ≠ 0 → encodeVal P ⟨s, e, m⟩ = .nan s) ∧
    (0 < e → e < P.emax → encodeVal P ⟨s, e, m⟩ =
      .fin s ((2 : ℚ≥0) ^ ((e : ℤ) - (P.bias : ℤ)) * (1 + (m : ℚ≥0) / (2 : ℚ≥0) ^ P.M)))

/-- Derived (40_encode.md R52): off the NaN triples the encoder is injective. -/
def Obligations.EncodeIsInjectiveOffNan : Prop :=
  ∀ (P : Precision) (f g : Fields), f.InRange P → g.InRange P → ¬ NanFields P f → ¬ NanFields P g →
    encodeVal P f = encodeVal P g → f = g

/-- R82: the value of a subnormal triple, with the smallest and the largest of each precision. -/
def Obligations.SubnormalFieldsEncodeToScaledMantissa : Prop :=
  (∀ (P : Precision) (s : SignBit) (m : Nat), m ≠ 0 → m < 2 ^ P.M →
    encodeVal P ⟨s, 0, m⟩ = .fin s ((m : ℚ≥0) * (2 : ℚ≥0) ^ (1 - (P.bias : ℤ) - (P.M : ℤ)))) ∧
  (∀ s : SignBit,
    encodeVal .p32 ⟨s, 0, 1⟩ = .fin s ((2 : ℚ≥0) ^ (-149 : ℤ)) ∧
    encodeVal .p64 ⟨s, 0, 1⟩ = .fin s ((2 : ℚ≥0) ^ (-1074 : ℤ)) ∧
    encodeVal .p32 ⟨s, 0, 2 ^ 23 - 1⟩ = .fin s ((2 : ℚ≥0) ^ (-126 : ℤ) - (2 : ℚ≥0) ^ (-149 : ℤ)) ∧
    encodeVal .p64 ⟨s, 0, 2 ^ 52 - 1⟩ = .fin s ((2 : ℚ≥0) ^ (-1022 : ℤ) - (2 : ℚ≥0) ^ (-1074 : ℤ))) ∧
  (∀ s : State, ∃ t, exec (.enc32 0#1 0x00#11 0x000001#52) s = .next t ∧ t.rVal = some 0x36A0000000000000#64 ∧
    t.rCls = some 1#3)

/-- R80 and R81: zero in both directions, with the signs kept. -/
def Obligations.SignedZerosInBothDirections : Prop :=
  (∀ (P : Precision) (s : SignBit), encodeVal P ⟨s, 0, 0⟩ = .fin s 0 ∧ word64 (.fin s 0) = s ++ 0#63 ∧
    decodeVal P (.fin s 0) = ⟨s, 0, 0⟩ ∧ decodeRef P (.fin s 0) = .ok ⟨s, 0, 0⟩ ∧ classify P 0 0 = .zero) ∧
  word64 (.fin 0#1 0) = 0x0000000000000000#64 ∧ word64 (.fin 1#1 0) = 0x8000000000000000#64 ∧
  (∀ s : State, ∃ t, exec (.enc32 1#1 0x00#11 0x000000#52) s = .next t ∧ t.rVal = some 0x8000000000000000#64 ∧
    t.rCls = some 0#3) ∧
  (∀ s : State, ∃ t, exec (.dec32 0x8000000000000000#64) s = .next t ∧ t.rSign = some 1#1 ∧ t.rExp = some 0#11 ∧
    t.rMan = some 0#52 ∧ t.rCls = some 0#3)

/-- R85 and R87: infinities and NaNs encoded. The fraction of the NaN word is the spec's choice D8 (log entry 5). -/
def Obligations.InfinityAndNanFieldsEncode : Prop :=
  (∀ (P : Precision) (s : SignBit), encodeVal P ⟨s, P.emax, 0⟩ = .inf s ∧ classify P P.emax 0 = .infinity) ∧
  (∀ (P : Precision) (s : SignBit) (m : Nat), m ≠ 0 → m < 2 ^ P.M →
    encodeVal P ⟨s, P.emax, m⟩ = .nan s ∧ classify P P.emax m = .nan) ∧
  word64 (.inf 0#1) = 0x7FF0000000000000#64 ∧ word64 (.inf 1#1) = 0xFFF0000000000000#64 ∧
  word64 (.nan 0#1) = 0x7FFFFFFFFFFFFFFF#64 ∧ word64 (.nan 1#1) = 0xFFFFFFFFFFFFFFFF#64 ∧
  (∀ s : State, ∃ t, exec (.enc32 1#1 0xFF#11 0x000000#52) s = .next t ∧ t.rVal = some 0xFFF0000000000000#64 ∧
    t.rCls = some 2#3) ∧
  (∀ s : State, ∃ t, exec (.enc32 0#1 0xFF#11 0x000001#52) s = .next t ∧ t.rVal = some 0x7FFFFFFFFFFFFFFF#64 ∧
    t.rCls = some 3#3)

/-- Derived (40_encode.md R54 and 30_encoding.md R43): every value an encoder produces is denoted by the word
`word64` gives, and a finite magnitude above 0 by one word only. -/
def Obligations.EncodedValuesHaveExactlyOneValueWord : Prop :=
  (∀ (P : Precision) (f : Fields), f.InRange P → val64 (word64 (encodeVal P f)) = encodeVal P f) ∧
  (∀ (w w' : ValueWord) (s : SignBit) (q : ℚ≥0), val64 w = .fin s q → val64 w' = .fin s q → w = w')

/-- Derived (30_encoding.md R42): the value of a word, case by case. -/
def Obligations.ValueWordsDenoteBinary64Values : Prop :=
  ∀ w : ValueWord,
    (wordExp w = 2047 → wordFrac w ≠ 0#52 → val64 w = .nan (wordSign w)) ∧
    (wordExp w = 2047 → wordFrac w = 0#52 → val64 w = .inf (wordSign w)) ∧
    (wordExp w = 0 → wordFrac w = 0#52 → val64 w = .fin (wordSign w) 0) ∧
    (wordExp w = 0 → wordFrac w ≠ 0#52 → val64 w =
      .fin (wordSign w) ((2 : ℚ≥0) ^ (-1022 : ℤ) * (((wordFrac w).toNat : ℚ≥0) / (2 : ℚ≥0) ^ 52))) ∧
    (wordExp w ≠ 0 → wordExp w ≠ 2047 → val64 w =
      .fin (wordSign w) ((2 : ℚ≥0) ^ ((wordExp w : ℤ) - 1023) *
        (1 + ((wordFrac w).toNat : ℚ≥0) / (2 : ℚ≥0) ^ 52)))

/-- Derived (30_encoding.md R41, R45): the fields of a word put back give the word, and `pack_64` of them has its
bits. -/
def Obligations.WordFieldsPackBackToTheWord : Prop :=
  ∀ w : ValueWord, wordOfFields (fieldsOfWord w) = w ∧ packFields .p64 (fieldsOfWord w) = w.toNat

/-! ### The decoder -/

/-- Derived (41_decode.md R62): the decoder's closed form, in the spec's formulas, with the ranges the rule states. -/
def Obligations.DecodeIsTheClosedForm : Prop :=
  ∀ (P : Precision) (s : SignBit),
    decodeVal P (.nan s) = ⟨s, P.emax, 2 ^ P.M - 1⟩ ∧
    decodeVal P (.inf s) = ⟨s, P.emax, 0⟩ ∧
    (∀ q : ℚ≥0, (2 : ℚ≥0) ^ ((P.bias : ℤ) + 1) ≤ q → decodeVal P (.fin s q) = ⟨s, P.emax, 0⟩) ∧
    (∀ (q : ℚ≥0) (k : ℤ), (2 : ℚ≥0) ^ (1 - (P.bias : ℤ)) ≤ q → q < (2 : ℚ≥0) ^ ((P.bias : ℤ) + 1) →
      (2 : ℚ≥0) ^ k ≤ q → q < (2 : ℚ≥0) ^ (k + 1) →
      decodeVal P (.fin s q) =
        ⟨s, (k + (P.bias : ℤ)).toNat, ⌊q / (2 : ℚ≥0) ^ (k - (P.M : ℤ))⌋₊ - 2 ^ P.M⟩ ∧
      1 - (P.bias : ℤ) ≤ k ∧ k ≤ (P.bias : ℤ) ∧
      2 ^ P.M ≤ ⌊q / (2 : ℚ≥0) ^ (k - (P.M : ℤ))⌋₊ ∧ ⌊q / (2 : ℚ≥0) ^ (k - (P.M : ℤ))⌋₊ < 2 ^ (P.M + 1)) ∧
    (∀ q : ℚ≥0, q < (2 : ℚ≥0) ^ (1 - (P.bias : ℤ)) →
      decodeVal P (.fin s q) = ⟨s, 0, ⌊q * (2 : ℚ≥0) ^ ((P.bias : ℤ) - 1 + (P.M : ℤ))⌋₊⟩ ∧
      ⌊q * (2 : ℚ≥0) ^ ((P.bias : ℤ) - 1 + (P.M : ℤ))⌋₊ < 2 ^ P.M ∧
      (⌊q * (2 : ℚ≥0) ^ ((P.bias : ℤ) - 1 + (P.M : ℤ))⌋₊ = 0 ↔
        q < (2 : ℚ≥0) ^ (1 - (P.bias : ℤ) - (P.M : ℤ))))

/-- R72: a decode always produces a valid BitFields and DEC32 and DEC64 never raise an error. -/
def Obligations.DecodeAlwaysProducesValidFields : Prop :=
  (∀ (P : Precision) (v : Val), (decodeVal P v).InRange P) ∧
  (∀ (v : ValueWord) (s : State), ∃ t u w w', exec (.dec32 v) s = .next t ∧ exec (.dec64 v) s = .next u ∧
    t.status = some w ∧ u.status = some w' ∧ statusErr w = 0#1 ∧ statusErr w' = 0#1)

/-- Derived (41_decode.md R71): the source's loops compute the closed form, for every value and both precisions. -/
def Obligations.LoopFormComputesTheClosedForm : Prop :=
  ∀ (P : Precision) (v : Val), decodeRef P v = .ok (decodeVal P v)

/-- R73: the normalisation answers an error on a negative argument and on no other, so no value reaches it, and code 2
is never produced. -/
def Obligations.NormalisationRefusesExactlyNegativeArguments : Prop :=
  (∀ (P : Precision) (x : ℚ), x < 0 → normalise P x = .error .internalNegative) ∧
  (∀ (P : Precision) (x : ℚ), 0 ≤ x → ∃ r, normalise P x = .ok r) ∧
  (∀ (P : Precision) (v : Val), ∃ f, decodeRef P v = .ok f) ∧
  (∀ (i : Instr) (s t : State) (w : BitVec 8), exec i s = .next t → t.status = some w → statusCode w ≠ 2#2)

/-- R64 and R65, with the examples of 42_special_cases.md: NaNs and infinities decoded, as values and as words. -/
def Obligations.NanAndInfinityDecode : Prop :=
  (∀ (P : Precision) (s : SignBit), decodeVal P (.nan s) = ⟨s, P.emax, 2 ^ P.M - 1⟩ ∧
    decodeVal P (.inf s) = ⟨s, P.emax, 0⟩) ∧
  (∀ s : SignBit, decodeVal .p32 (.nan s) = ⟨s, 0xFF, 0x7FFFFF⟩ ∧
    decodeVal .p64 (.nan s) = ⟨s, 0x7FF, 0xFFFFFFFFFFFFF⟩) ∧
  (∀ (P : Precision) (w : ValueWord), wordExp w = 2047 →
    decodeVal P (val64 w) = ⟨wordSign w, P.emax, if wordFrac w = 0#52 then 0 else 2 ^ P.M - 1⟩) ∧
  packFields .p32 (decodeVal .p32 (val64 0xFFF0000000000001#64)) = 0xFFFFFFFF ∧
  packFields .p64 (decodeVal .p64 (val64 0x7FF0000000000000#64)) = 0x7FF0000000000000 ∧
  (∀ s : State, ∃ t u, exec (.dec32 0xFFF0000000000001#64) s = .next t ∧ t.rCls = some 3#3 ∧
    exec (.dec64 0x7FF0000000000000#64) s = .next u ∧ u.rCls = some 2#3)

/-- R83: a magnitude below the smallest normal number decodes to its scaled floor; the two boundary cases; the
source's test of `2^-149`. -/
def Obligations.MagnitudesBelowTheSmallestNormalDecodeToScaledFloor : Prop :=
  (∀ (P : Precision) (s : SignBit) (q : ℚ≥0), q < (2 : ℚ≥0) ^ (1 - (P.bias : ℤ)) →
    ∃ m, decodeVal P (.fin s q) = ⟨s, 0, m⟩ ∧ m = ⌊q * (2 : ℚ≥0) ^ ((P.bias : ℤ) - 1 + (P.M : ℤ))⌋₊ ∧
      (classify P 0 m = .subnormal ↔ m ≠ 0) ∧ (classify P 0 m = .zero ↔ m = 0)) ∧
  (∀ (s : SignBit) (q : ℚ≥0), q < (2 : ℚ≥0) ^ (-126 : ℤ) →
    decodeVal .p32 (.fin s q) = ⟨s, 0, ⌊q * (2 : ℚ≥0) ^ (149 : ℤ)⌋₊⟩) ∧
  (∀ (s : SignBit) (q : ℚ≥0), q < (2 : ℚ≥0) ^ (-1022 : ℤ) →
    decodeVal .p64 (.fin s q) = ⟨s, 0, ⌊q * (2 : ℚ≥0) ^ (1074 : ℤ)⌋₊⟩) ∧
  (∀ (P : Precision) (s : SignBit), decodeVal P (.fin s ((2 : ℚ≥0) ^ (1 - (P.bias : ℤ)))) = ⟨s, 1, 0⟩ ∧
    decodeVal P (.fin s ((2 : ℚ≥0) ^ (1 - (P.bias : ℤ)) - (2 : ℚ≥0) ^ (1 - (P.bias : ℤ) - (P.M : ℤ)))) =
      ⟨s, 0, 2 ^ P.M - 1⟩) ∧
  (∀ s : SignBit, decodeVal .p32 (.fin s ((2 : ℚ≥0) ^ (-149 : ℤ))) = ⟨s, 0, 1⟩ ∧
    encodeVal .p32 ⟨s, 0, 1⟩ = .fin s ((2 : ℚ≥0) ^ (-149 : ℤ))) ∧
  (∀ P : Precision, classify P 1 0 = .normal ∧ classify P 0 (2 ^ P.M - 1) = .subnormal) ∧
  packFields .p32 (decodeVal .p32 (val64 0x3800000000000000#64)) = 0x00400000 ∧
  (∀ s : State, ∃ t, exec (.dec32 0x3800000000000000#64) s = .next t ∧ t.rCls = some 1#3)

/-- Derived (42_special_cases.md R84): exactly the magnitudes below the smallest subnormal decode to zero, with the
input's sign; on the value port only DEC32 does so to a non-zero magnitude, exactly for `bexp <= 873`. -/
def Obligations.UnderflowToZeroKeepsTheSign : Prop :=
  (∀ (P : Precision) (s : SignBit) (q : ℚ≥0),
    decodeVal P (.fin s q) = ⟨s, 0, 0⟩ ↔ q < (2 : ℚ≥0) ^ (1 - (P.bias : ℤ) - (P.M : ℤ))) ∧
  (∀ w : ValueWord, decodeVal .p32 (val64 w) = ⟨wordSign w, 0, 0⟩ ↔ wordExp w ≤ 873) ∧
  (∀ w : ValueWord, decodeVal .p64 (val64 w) = ⟨wordSign w, 0, 0⟩ ↔ val64 w = .fin (wordSign w) 0)

/-- R89: a finite magnitude decodes to infinity exactly from `2^(bias+1)`; on the value port only at precision 32,
exactly for finite words with `bexp >= 1151`; class Infinity and no error. -/
def Obligations.SaturationStartsExactlyAtTheBound : Prop :=
  (∀ (P : Precision) (s : SignBit) (q : ℚ≥0),
    decodeVal P (.fin s q) = ⟨s, P.emax, 0⟩ ↔ (2 : ℚ≥0) ^ ((P.bias : ℤ) + 1) ≤ q) ∧
  (∀ w : ValueWord, wordExp w ≠ 2047 →
    (decodeVal .p32 (val64 w) = ⟨wordSign w, 255, 0⟩ ↔ 1151 ≤ wordExp w) ∧ (decodeVal .p64 (val64 w)).e ≠ 2047) ∧
  (∀ P : Precision, classify P P.emax 0 = .infinity) ∧
  (∀ (w : ValueWord) (s : State), wordExp w ≠ 2047 → 1151 ≤ wordExp w →
    ∃ t, exec (.dec32 w) s = .next t ∧ t.status = some 0x11#8 ∧ t.rCls = some 2#3) ∧
  packFields .p32 (decodeVal .p32 (val64 0x47F0000000000000#64)) = 0x7F800000

/-- Derived (42_special_cases.md R90): magnitudes from the largest finite one up to the bound, and no others, decode to
the largest finite fields. -/
def Obligations.MagnitudesUpToTheBoundTruncateToTheLargestFinite : Prop :=
  ∀ (P : Precision) (s : SignBit) (q : ℚ≥0),
    decodeVal P (.fin s q) = ⟨s, P.emax - 1, 2 ^ P.M - 1⟩ ↔
      (2 - (2 : ℚ) ^ (-(P.M : ℤ))) * (2 : ℚ) ^ (P.bias : ℤ) ≤ (q : ℚ) ∧ (q : ℚ) < (2 : ℚ) ^ ((P.bias : ℤ) + 1)

/-- R91: truncation. Below the saturation bound the value of the fields decoded is the largest magnitude representable
at the precision that is `<= q`; integer bits are dropped as fraction bits are. -/
def Obligations.DecodeTruncatesToTheLargestRepresentableBelow : Prop :=
  (∀ (P : Precision) (s : SignBit) (q : ℚ≥0), q < (2 : ℚ≥0) ^ ((P.bias : ℤ) + 1) →
    ∃ r : ℚ≥0, encodeVal P (decodeVal P (.fin s q)) = .fin s r ∧ Representable P r ∧ r ≤ q ∧
      ∀ r' : ℚ≥0, Representable P r' → r' ≤ q → r' ≤ r) ∧
  (∀ s : SignBit, decodeVal .p32 (.fin s (2 ^ 24 + 1)) = decodeVal .p32 (.fin s (2 ^ 24))) ∧
  packFields .p32 (decodeVal .p32 (val64 0x40091EB851EB851F#64)) = 0x4048F5C2

/-- Derived (42_special_cases.md R92): the magnitude lost is less than one unit in the last place. -/
def Obligations.TruncationLosesLessThanOneUnitInTheLastPlace : Prop :=
  ∀ (P : Precision) (s : SignBit) (q r : ℚ≥0), encodeVal P (decodeVal P (.fin s q)) = .fin s r →
    r ≤ q ∧
    (∀ k : ℤ, 1 - (P.bias : ℤ) ≤ k → k ≤ (P.bias : ℤ) → (2 : ℚ≥0) ^ k ≤ q → q < (2 : ℚ≥0) ^ (k + 1) →
      q < r + (2 : ℚ≥0) ^ (k - (P.M : ℤ))) ∧
    (q < (2 : ℚ≥0) ^ (1 - (P.bias : ℤ)) → q < r + (2 : ℚ≥0) ^ (1 - (P.bias : ℤ) - (P.M : ℤ)))

/-! ### Classes -/

/-- Derived (42_special_cases.md, classification of R79): the class of in-range fields, exactly. -/
def Obligations.ClassifyIsTheFiveDisjointCases : Prop :=
  ∀ (P : Precision) (e m : Nat), e ≤ P.emax → m < 2 ^ P.M →
    (classify P e m = .zero ↔ e = 0 ∧ m = 0) ∧
    (classify P e m = .subnormal ↔ e = 0 ∧ m ≠ 0) ∧
    (classify P e m = .infinity ↔ e = P.emax ∧ m = 0) ∧
    (classify P e m = .nan ↔ e = P.emax ∧ m ≠ 0) ∧
    (classify P e m = .normal ↔ 0 < e ∧ e < P.emax)

/-- Derived (42_special_cases.md R98): the class of a decoded value by its magnitude. -/
def Obligations.ClassOfADecodedValueByItsMagnitude : Prop :=
  ∀ (P : Precision) (s : SignBit) (q : ℚ≥0),
    let f := decodeVal P (.fin s q)
    (classify P f.e f.m = .zero ↔ q < (2 : ℚ≥0) ^ (1 - (P.bias : ℤ) - (P.M : ℤ))) ∧
    (classify P f.e f.m = .subnormal ↔
      (2 : ℚ≥0) ^ (1 - (P.bias : ℤ) - (P.M : ℤ)) ≤ q ∧ q < (2 : ℚ≥0) ^ (1 - (P.bias : ℤ))) ∧
    (classify P f.e f.m = .normal ↔
      (2 : ℚ≥0) ^ (1 - (P.bias : ℤ)) ≤ q ∧ q < (2 : ℚ≥0) ^ ((P.bias : ℤ) + 1)) ∧
    (classify P f.e f.m = .infinity ↔ (2 : ℚ≥0) ^ ((P.bias : ℤ) + 1) ≤ q) ∧
    classify P f.e f.m ≠ .nan

/-! ### Laws connecting the two directions -/

/-- Derived (42_special_cases.md R93): every value representable at the precision survives decode and encode. -/
def Obligations.RepresentableValuesSurviveDecodeThenEncode : Prop :=
  ∀ (P : Precision) (s : SignBit),
    encodeVal P (decodeVal P (.nan s)) = .nan s ∧ encodeVal P (decodeVal P (.inf s)) = .inf s ∧
    ∀ q : ℚ≥0, encodeVal P (decodeVal P (.fin s q)) = .fin s q ↔ Representable P q

/-- Derived (42_special_cases.md R94): decode undoes encode on every triple that is no NaN, and sends every NaN to the
all-ones one of its sign: no field bit is lost. -/
def Obligations.FieldsSurviveEncodeThenDecode : Prop :=
  ∀ (P : Precision) (f : Fields), f.InRange P →
    (¬ NanFields P f → decodeVal P (encodeVal P f) = f) ∧
    (NanFields P f → decodeVal P (encodeVal P f) = ⟨f.sign, P.emax, 2 ^ P.M - 1⟩)

/-- Derived (42_special_cases.md R94 on the ports, 95_test_vectors.md L1, L2): what ENC32 or ENC64 wrote, decoded at the
same precision, gives the fields presented, a NaN the all-ones mantissa. -/
def Obligations.EncodeCommandThenDecodeCommandReturnsTheFields : Prop :=
  ∀ (sg : SignBit) (s : State),
    (∀ (e : BitVec 8) (m : BitVec 23), ∃ t w u,
      exec (.enc32 sg (e.setWidth 11) (m.setWidth 52)) s = .next t ∧ t.rVal = some w ∧
      exec (.dec32 w) t = .next u ∧ u.rSign = some sg ∧ u.rExp = some (e.setWidth 11) ∧
      u.rMan = some (if e = 255#8 ∧ m ≠ 0#23 then 0x7FFFFF#52 else m.setWidth 52)) ∧
    (∀ (e : ExpPort) (m : ManPort), ∃ t w u,
      exec (.enc64 sg e m) s = .next t ∧ t.rVal = some w ∧
      exec (.dec64 w) t = .next u ∧ u.rSign = some sg ∧ u.rExp = some e ∧
      u.rMan = some (if e = 2047#11 ∧ m ≠ 0#52 then 0xFFFFFFFFFFFFF#52 else m))

/-- Derived (42_special_cases.md R93 on the ports, 95_test_vectors.md L3, L4): DEC64 then ENC64 returns every word that
is no NaN; DEC32 then ENC32 returns a word of the binary32 normal range with its low 29 bits dropped. -/
def Obligations.DecodeCommandThenEncodeCommandReturnsTheWord : Prop :=
  ∀ (v : ValueWord) (s : State),
    (∃ t b e m u, exec (.dec64 v) s = .next t ∧ t.rSign = some b ∧ t.rExp = some e ∧ t.rMan = some m ∧
      exec (.enc64 b e m) t = .next u ∧
      (¬ NanWord v → u.rVal = some v) ∧
      (NanWord v → u.rVal = some (wordSign v ++ 0x7FF#11 ++ nanFrac64))) ∧
    (897 ≤ wordExp v → wordExp v ≤ 1150 →
      ∃ t b e m u, exec (.dec32 v) s = .next t ∧ t.rSign = some b ∧ t.rExp = some e ∧ t.rMan = some m ∧
        exec (.enc32 b e m) t = .next u ∧ u.rVal = some (v.extractLsb' 29 35 ++ 0#29))

/-- Derived (42_special_cases.md R94, 70_reset_and_hazards.md R119): one pass converges. -/
def Obligations.OnePassThroughBothDirectionsConverges : Prop :=
  ∀ (P : Precision),
    (∀ f : Fields, f.InRange P → encodeVal P (decodeVal P (encodeVal P f)) = encodeVal P f) ∧
    (∀ v : Val, decodeVal P (encodeVal P (decodeVal P v)) = decodeVal P v)

/-- Derived (42_special_cases.md R97): the sign enters nothing but the sign, and decode is monotone on magnitudes. The
second clause also speaks of fields out of range, where it is about the model's choice (log entry 19). -/
def Obligations.DecodeIsSignSymmetricAndMonotone : Prop :=
  (∀ (P : Precision) (s : SignBit) (v : Val),
    decodeVal P (withSign s v) = { decodeVal P v with sign := s }) ∧
  (∀ (P : Precision) (s s' : SignBit) (e m : Nat),
    encodeVal P ⟨s, e, m⟩ = withSign s (encodeVal P ⟨s', e, m⟩)) ∧
  (∀ (P : Precision) (s : SignBit) (q1 q2 : ℚ≥0), q1 ≤ q2 →
    let f1 := decodeVal P (.fin s q1)
    let f2 := decodeVal P (.fin s q2)
    f1.e < f2.e ∨ (f1.e = f2.e ∧ f1.m ≤ f2.m))

/-- Derived (42_special_cases.md R96): in the binary32 normal range, and by two unrelated commands, the 32-bit fields
are the top of the 64-bit ones. -/
def Obligations.PrecisionsAgreeInTheNormalRange : Prop :=
  ∀ (v : ValueWord) (s : State), 897 ≤ wordExp v → wordExp v ≤ 1150 →
    ∃ t u e e' m m', exec (.dec32 v) s = .next t ∧ exec (.dec64 v) t = .next u ∧
      t.rExp = some e ∧ u.rExp = some e' ∧ t.rMan = some m ∧ u.rMan = some m' ∧
      e.toNat = e'.toNat - 896 ∧ m = (m'.extractLsb' 29 23).setWidth 52

/-! ### Several instances -/

/-- Derived (20_memory.md R31, 60_exceptions.md R110): an edge of one instance is a step of that instance, leaves every
other as it was, and the order of edges of different instances does not matter. -/
def Obligations.InstancesShareNothing : Prop :=
  (∀ (p : Platform) (k j : Nat), k ≠ j → (p.stepAt k).blocks[j]? = p.blocks[j]?) ∧
  (∀ (p : Platform) (k : Nat) (s : State), p.blocks[k]? = some s →
    ∃ t, step s = .next t ∧ (p.stepAt k).blocks[k]? = some t) ∧
  (∀ (p : Platform) (k j : Nat), k ≠ j → (p.stepAt k).stepAt j = (p.stepAt j).stepAt k)
end

