-- ==== Sys2Proof/Laws/Value.lean ====
section
/-! SUPPORT. The exact arithmetic of Machine/Value.lean means what its docstrings say in the rationals, and the two
functions of the abstract layer case by case in the spec's own formulas. -/

namespace Sys2Proof

@[simp] theorem Precision.E_p32 : Precision.p32.E = 8 := rfl
@[simp] theorem Precision.E_p64 : Precision.p64.E = 11 := rfl
@[simp] theorem Precision.M_p32 : Precision.p32.M = 23 := rfl
@[simp] theorem Precision.M_p64 : Precision.p64.M = 52 := rfl
@[simp] theorem Precision.bias_p32 : Precision.p32.bias = 127 := rfl
@[simp] theorem Precision.bias_p64 : Precision.p64.bias = 1023 := rfl
@[simp] theorem Precision.emax_p32 : Precision.p32.emax = 255 := rfl
@[simp] theorem Precision.emax_p64 : Precision.p64.emax = 2047 := rfl

theorem Precision.emax_eq (P : Precision) : P.emax = 2 * P.bias + 1 := by cases P <;> rfl

theorem Precision.bias_pos (P : Precision) : 0 < P.bias := by cases P <;> decide

end Sys2Proof

namespace Sys2Proof.Machine

open Sys2Proof

theorem dyadic_eq (n : Nat) (k : Int) : dyadic n k = (n : ℚ≥0) * (2 : ℚ≥0) ^ k := by
  cases k with
  | ofNat k =>
    show NNRat.divNat (n * 2 ^ k) 1 = (n : ℚ≥0) * (2 : ℚ≥0) ^ (k : Int)
    rw [NNRat.divNat_eq_div]; simp
  | negSucc k =>
    show NNRat.divNat n (2 ^ (k + 1)) = _
    rw [NNRat.divNat_eq_div, zpow_negSucc]; push_cast; rw [div_eq_mul_inv]

theorem num_eq_mul_den (q : ℚ≥0) : (q.num : ℚ≥0) = q * q.den :=
  (div_eq_iff (by exact_mod_cast q.den_ne_zero)).mp (NNRat.num_div_den q)

theorem geTwoPow_iff (q : ℚ≥0) (k : Int) : geTwoPow q k = true ↔ (2 : ℚ≥0) ^ k ≤ q := by
  have hd : (0 : ℚ≥0) < q.den := by exact_mod_cast q.den_pos
  cases k with
  | ofNat k =>
    show decide _ = true ↔ (2 : ℚ≥0) ^ (k : Int) ≤ q
    rw [decide_eq_true_iff, ← Nat.cast_le (α := ℚ≥0), num_eq_mul_den, mul_comm q]
    push_cast
    rw [mul_le_mul_iff_right₀ hd, zpow_natCast]
  | negSucc k =>
    show decide _ = true ↔ _
    have hp : (0 : ℚ≥0) < 2 ^ (k + 1) := by positivity
    rw [decide_eq_true_iff, ← Nat.cast_le (α := ℚ≥0), Nat.cast_mul, num_eq_mul_den, zpow_negSucc,
      inv_le_iff_one_le_mul₀ hp]
    push_cast
    rw [mul_right_comm, le_mul_iff_one_le_left hd]

theorem floorScaled_eq (q : ℚ≥0) (k : Int) : floorScaled q k = ⌊q * (2 : ℚ≥0) ^ k⌋₊ := by
  have key : ∀ a b : Nat, a / b = ⌊(a : ℚ≥0) / (b : ℚ≥0)⌋₊ := fun a b => (Nat.floor_div_eq_div a b).symm
  cases k with
  | ofNat k =>
    show q.num * 2 ^ k / q.den = ⌊q * (2 : ℚ≥0) ^ (k : Int)⌋₊
    rw [key]; congr 1; push_cast
    rw [mul_div_right_comm, NNRat.num_div_den, zpow_natCast]
  | negSucc k =>
    show q.num / (q.den * 2 ^ (k + 1)) = _
    rw [key]; congr 1; push_cast
    rw [← div_div, NNRat.num_div_den, zpow_negSucc, div_eq_mul_inv]

theorem floorlog2_spec {q : ℚ≥0} (hq : 0 < q) :
    (2 : ℚ≥0) ^ floorlog2 q ≤ q ∧ q < (2 : ℚ≥0) ^ (floorlog2 q + 1) := by
  have h2 : (2 : ℚ≥0) ≠ 0 := by norm_num
  have hn : q.num ≠ 0 := by simpa using hq.ne'
  have hd := q.den_ne_zero
  have e2 : ∀ a : Nat, (2 : ℚ≥0) ^ (a : Int) = ((2 ^ a : Nat) : ℚ≥0) := by intro a; push_cast; rw [zpow_natCast]
  have bn1 : ((2 ^ Nat.log2 q.num : Nat) : ℚ≥0) ≤ q.num := by exact_mod_cast Nat.log2_self_le hn
  have bn2 : (q.num : ℚ≥0) < ((2 ^ (Nat.log2 q.num + 1) : Nat) : ℚ≥0) := by exact_mod_cast Nat.lt_log2_self
  have bd1 : ((2 ^ Nat.log2 q.den : Nat) : ℚ≥0) ≤ q.den := by exact_mod_cast Nat.log2_self_le hd
  have bd2 : (q.den : ℚ≥0) < ((2 ^ (Nat.log2 q.den + 1) : Nat) : ℚ≥0) := by exact_mod_cast Nat.lt_log2_self
  rw [← e2] at bn1 bn2 bd1 bd2
  push_cast at bn2 bd2
  have hd0 : (0 : ℚ≥0) < q.den := by exact_mod_cast q.den_pos
  have hqe : q = q.num / q.den := (NNRat.num_div_den q).symm
  set a : Int := (Nat.log2 q.num : Int) with ha
  set b : Int := (Nat.log2 q.den : Int) with hb
  have lo : (2 : ℚ≥0) ^ (a - b - 1) ≤ q := by
    rw [show a - b - 1 = a - (b + 1) by ring, zpow_sub₀ h2, hqe]
    exact div_le_div₀ (by positivity) bn1 hd0 bd2.le
  have hi : q < (2 : ℚ≥0) ^ (a - b + 1) := by
    rw [show a - b + 1 = (a + 1) - b by ring, zpow_sub₀ h2, hqe]
    exact div_lt_div₀ bn2 bd1 (by positivity) (by positivity)
  unfold floorlog2
  show (2 : ℚ≥0) ^ (if geTwoPow q (a - b) = true then a - b else a - b - 1) ≤ q ∧ _
  show _ ∧ q < (2 : ℚ≥0) ^ ((if geTwoPow q (a - b) = true then a - b else a - b - 1) + 1)
  split
  · next h => exact ⟨(geTwoPow_iff q _).mp h, hi⟩
  · next h =>
    refine ⟨lo, ?_⟩
    rw [geTwoPow_iff] at h
    rw [show a - b - 1 + 1 = a - b by ring]
    exact not_le.mp h

theorem floorlog2_unique {q : ℚ≥0} {k : Int} (h1 : (2 : ℚ≥0) ^ k ≤ q) (h2 : q < (2 : ℚ≥0) ^ (k + 1)) :
    floorlog2 q = k := by
  have hq : 0 < q := lt_of_lt_of_le (by positivity) h1
  obtain ⟨l1, l2⟩ := floorlog2_spec hq
  have one : (1 : ℚ≥0) < 2 := by norm_num
  have a := (zpow_lt_zpow_iff_right₀ one).mp (lt_of_le_of_lt h1 l2)
  have b := (zpow_lt_zpow_iff_right₀ one).mp (lt_of_le_of_lt l1 h2)
  omega

theorem decodeVal_saturates {P : Precision} (s : SignBit) {q : ℚ≥0} (h : (2 : ℚ≥0) ^ ((P.bias : ℤ) + 1) ≤ q) :
    decodeVal P (.fin s q) = infinityFields P s := by
  simp only [decodeVal, (geTwoPow_iff q _).mpr h, if_true]

theorem decodeVal_below_bound {P : Precision} (s : SignBit) {q : ℚ≥0} (h : q < (2 : ℚ≥0) ^ ((P.bias : ℤ) + 1)) :
    decodeVal P (.fin s q) =
      if geTwoPow q (1 - (P.bias : Int)) then normalFields P s q else subnormalFields P s q := by
  have : ¬ geTwoPow q ((P.bias : Int) + 1) = true := by rw [geTwoPow_iff]; exact not_le.mpr h
  simp only [decodeVal, if_neg this]

theorem decodeVal_subnormal {P : Precision} (s : SignBit) {q : ℚ≥0} (h : q < (2 : ℚ≥0) ^ (1 - (P.bias : ℤ))) :
    decodeVal P (.fin s q) =
      { sign := s, e := 0, m := ⌊q * (2 : ℚ≥0) ^ ((P.bias : ℤ) - 1 + (P.M : ℤ))⌋₊ } := by
  have h2 : q < (2 : ℚ≥0) ^ ((P.bias : ℤ) + 1) :=
    lt_of_lt_of_le h (zpow_le_zpow_right₀ (by norm_num) (by have := P.bias_pos; omega))
  have : ¬ geTwoPow q (1 - (P.bias : Int)) = true := by rw [geTwoPow_iff]; exact not_le.mpr h
  rw [decodeVal_below_bound s h2, if_neg this, subnormalFields, floorScaled_eq]

theorem decodeVal_normal {P : Precision} (s : SignBit) {q : ℚ≥0} {k : ℤ} (h1 : (2 : ℚ≥0) ^ k ≤ q)
    (h2 : q < (2 : ℚ≥0) ^ (k + 1)) (h3 : 1 - (P.bias : ℤ) ≤ k) (h4 : k ≤ P.bias) :
    decodeVal P (.fin s q) =
      { sign := s, e := (k + (P.bias : ℤ)).toNat, m := ⌊q * (2 : ℚ≥0) ^ ((P.M : ℤ) - k)⌋₊ - 2 ^ P.M } := by
  have one : (1 : ℚ≥0) ≤ 2 := by norm_num
  have a : q < (2 : ℚ≥0) ^ ((P.bias : ℤ) + 1) := lt_of_lt_of_le h2 (zpow_le_zpow_right₀ one (by omega))
  have b : geTwoPow q (1 - (P.bias : Int)) = true := by
    rw [geTwoPow_iff]; exact le_trans (zpow_le_zpow_right₀ one h3) h1
  rw [decodeVal_below_bound s a, if_pos b, normalFields, floorlog2_unique h1 h2, floorScaled_eq]

/-- The three ranges of a magnitude, the middle one with the exponent of its leading 1. -/
theorem magnitude_cases (P : Precision) (q : ℚ≥0) :
    (2 : ℚ≥0) ^ ((P.bias : ℤ) + 1) ≤ q ∨ q < (2 : ℚ≥0) ^ (1 - (P.bias : ℤ)) ∨
    ∃ k : ℤ, 1 - (P.bias : ℤ) ≤ k ∧ k ≤ P.bias ∧ (2 : ℚ≥0) ^ k ≤ q ∧ q < (2 : ℚ≥0) ^ (k + 1) := by
  rcases le_or_gt ((2 : ℚ≥0) ^ ((P.bias : ℤ) + 1)) q with h | h
  · exact .inl h
  rcases lt_or_ge q ((2 : ℚ≥0) ^ (1 - (P.bias : ℤ))) with g | g
  · exact .inr (.inl g)
  have one : (1 : ℚ≥0) < 2 := by norm_num
  obtain ⟨l1, l2⟩ := floorlog2_spec (lt_of_lt_of_le (by positivity) g)
  have a := (zpow_lt_zpow_iff_right₀ one).mp (lt_of_le_of_lt l1 h)
  have b := (zpow_lt_zpow_iff_right₀ one).mp (lt_of_le_of_lt g l2)
  exact .inr (.inr ⟨floorlog2 q, by omega, by omega, l1, l2⟩)

end Sys2Proof.Machine
end

