-- ==== Sys2Proof/Laws/Codec.lean ====
section
/-! SUPPORT. What the encoder, the window of the decoder and the operand ports do: one lemma per operation. -/

namespace Sys2Proof.Machine

open Sys2Proof

theorem two_ne_zero_nnrat : (2 : ℚ≥0) ≠ 0 := by norm_num

/-- The value of fields with exponent 0 (R51, R82); the zero is the case `m = 0`. -/
theorem encodeVal_subnormal (P : Precision) (s : SignBit) (m : Nat) :
    encodeVal P ⟨s, 0, m⟩ = .fin s ((m : ℚ≥0) * (2 : ℚ≥0) ^ (1 - (P.bias : ℤ) - (P.M : ℤ))) := by
  by_cases h : m = 0
  · subst h; simp [encodeVal, classify]
  · simp [encodeVal, classify, h, dyadic_eq]

/-- The value of normal fields (R51). -/
theorem encodeVal_normal (P : Precision) (s : SignBit) (e m : Nat) (h0 : 0 < e) (h1 : e < P.emax) :
    encodeVal P ⟨s, e, m⟩ = .fin s (((2 ^ P.M + m : ℕ) : ℚ≥0) * (2 : ℚ≥0) ^ ((e : ℤ) - P.bias - P.M)) := by
  simp only [encodeVal, classify, h0.ne', h1.ne, if_false, dyadic_eq]

/-- R85. -/
theorem encodeVal_infinity (P : Precision) (s : SignBit) : encodeVal P ⟨s, P.emax, 0⟩ = .inf s := by
  cases P <;> rfl

/-- R87. -/
theorem encodeVal_nan (P : Precision) (s : SignBit) (m : Nat) (h : m ≠ 0) : encodeVal P ⟨s, P.emax, m⟩ = .nan s := by
  cases P <;> simp [encodeVal, classify, h]

/-- The spec's formula for a normal value, against the one `encodeVal` computes. -/
theorem normal_formula (P : Precision) (e m : Nat) :
   (2 : ℚ≥0) ^ ((e : ℤ) - (P.bias : ℤ)) * (1 + (m : ℚ≥0) / (2 : ℚ≥0) ^ P.M) = ((2 ^ P.M + m : ℕ) : ℚ≥0) * (2 : ℚ≥0) ^ ((e : ℤ) - P.bias - P.M) := by
  rw [zpow_sub₀ two_ne_zero_nnrat _ (P.M : ℤ), zpow_natCast]; push_cast; field_simp

/-- The M+1 bits from the leading one lie in `[2^M, 2^(M+1))` (R62). -/
theorem window_bounds {q : ℚ≥0} {k : ℤ} (M : Nat) (h1 : (2 : ℚ≥0) ^ k ≤ q) (h2 : q < (2 : ℚ≥0) ^ (k + 1)) :
    2 ^ M ≤ ⌊q * (2 : ℚ≥0) ^ ((M : ℤ) - k)⌋₊ ∧ ⌊q * (2 : ℚ≥0) ^ ((M : ℤ) - k)⌋₊ < 2 ^ (M + 1) := by
  have hp : (0 : ℚ≥0) < 2 ^ ((M : ℤ) - k) := by positivity
  constructor
  · rw [Nat.le_floor_iff (by positivity)]
    push_cast
    calc (2 : ℚ≥0) ^ M = 2 ^ k * 2 ^ ((M : ℤ) - k) := by rw [← zpow_add₀ two_ne_zero_nnrat, show k + ((M : ℤ) - k) = (M : ℤ) by ring, zpow_natCast]
      _ ≤ _ := by gcongr
  · rw [Nat.floor_lt (by positivity)]
    push_cast
    calc q * 2 ^ ((M : ℤ) - k) < 2 ^ (k + 1) * 2 ^ ((M : ℤ) - k) := by gcongr
      _ = 2 ^ (M + 1) := by rw [← zpow_add₀ two_ne_zero_nnrat, show k + 1 + ((M : ℤ) - k) = ((M + 1 : ℕ) : ℤ) by push_cast; ring, zpow_natCast]

/-- Below the smallest normal number the window has M bits (R62). -/
theorem subnormal_window (P : Precision) {q : ℚ≥0} (h : q < (2 : ℚ≥0) ^ (1 - (P.bias : ℤ))) :
    ⌊q * (2 : ℚ≥0) ^ ((P.bias : ℤ) - 1 + (P.M : ℤ))⌋₊ < 2 ^ P.M := by
  have hp : (0 : ℚ≥0) < 2 ^ ((P.bias : ℤ) - 1 + (P.M : ℤ)) := by positivity
  rw [Nat.floor_lt (by positivity)]
  push_cast
  calc q * 2 ^ ((P.bias : ℤ) - 1 + (P.M : ℤ)) < 2 ^ (1 - (P.bias : ℤ)) * 2 ^ ((P.bias : ℤ) - 1 + (P.M : ℤ)) := by gcongr
    _ = 2 ^ P.M := by rw [← zpow_add₀ two_ne_zero_nnrat, show 1 - (P.bias : ℤ) + ((P.bias : ℤ) - 1 + (P.M : ℤ)) = ((P.M : ℕ) : ℤ) by ring, zpow_natCast]

/-- It is empty exactly below the smallest subnormal (R62). -/
theorem subnormal_window_eq_zero_iff (P : Precision) (q : ℚ≥0) :
    ⌊q * (2 : ℚ≥0) ^ ((P.bias : ℤ) - 1 + (P.M : ℤ))⌋₊ = 0 ↔ q < (2 : ℚ≥0) ^ (1 - (P.bias : ℤ) - (P.M : ℤ)) := by
  have hp : (0 : ℚ≥0) < 2 ^ ((P.bias : ℤ) - 1 + (P.M : ℤ)) := by positivity
  rw [Nat.floor_eq_zero, ← lt_div_iff₀ hp, one_div, ← zpow_neg]
  congr! 2; ring

/-- Truncation at weight `2^u` never adds (R91). -/
theorem floor_window_le (q : ℚ≥0) (u : ℤ) : (⌊q * (2 : ℚ≥0) ^ (-u)⌋₊ : ℚ≥0) * (2 : ℚ≥0) ^ u ≤ q := by
  have hp : (0 : ℚ≥0) < 2 ^ u := by positivity
  calc _ ≤ (q * (2 : ℚ≥0) ^ (-u)) * 2 ^ u := by gcongr; exact Nat.floor_le (by positivity)
    _ = q := by rw [mul_assoc, ← zpow_add₀ two_ne_zero_nnrat]; simp

/-- It loses less than `2^u` (R92). -/
theorem lt_floor_window_add (q : ℚ≥0) (u : ℤ) : q < (⌊q * (2 : ℚ≥0) ^ (-u)⌋₊ : ℚ≥0) * (2 : ℚ≥0) ^ u + 2 ^ u := by
  have hp : (0 : ℚ≥0) < 2 ^ u := by positivity
  calc q = (q * (2 : ℚ≥0) ^ (-u)) * 2 ^ u := by rw [mul_assoc, ← zpow_add₀ two_ne_zero_nnrat]; simp
    _ < (⌊q * (2 : ℚ≥0) ^ (-u)⌋₊ + 1) * 2 ^ u := by gcongr; exact Nat.lt_floor_add_one _
    _ = _ := by ring

/-- It loses nothing of a multiple of `2^u`. -/
theorem floor_window_exact (n : Nat) (u : ℤ) : ⌊(n * (2 : ℚ≥0) ^ u) * (2 : ℚ≥0) ^ (-u)⌋₊ = n := by
  rw [mul_assoc, ← zpow_add₀ two_ne_zero_nnrat]; simp

/-- It keeps every multiple of `2^u` that is at most `q`. -/
theorem le_floor_window (q : ℚ≥0) (u : ℤ) (n : Nat) (h : n * (2 : ℚ≥0) ^ u ≤ q) : n ≤ ⌊q * (2 : ℚ≥0) ^ (-u)⌋₊ := by
  rw [← floor_window_exact n u]; gcongr

/-- A normal magnitude lies in its binade. -/
theorem normal_magnitude_bounds (M m : Nat) (k : ℤ) (h : m < 2 ^ M) :
    (2 : ℚ≥0) ^ k ≤ ((2 ^ M + m : ℕ) : ℚ≥0) * 2 ^ (k - (M : ℤ)) ∧ ((2 ^ M + m : ℕ) : ℚ≥0) * (2 : ℚ≥0) ^ (k - (M : ℤ)) < 2 ^ (k + 1) := by
  have e1 : (2 : ℚ≥0) ^ k = (2 ^ M : ℕ) * 2 ^ (k - (M : ℤ)) := by
    push_cast; rw [← zpow_natCast, ← zpow_add₀ two_ne_zero_nnrat]; congr 1; ring
  have e2 : (2 : ℚ≥0) ^ (k + 1) = (2 ^ (M + 1) : ℕ) * 2 ^ (k - (M : ℤ)) := by
    push_cast; rw [← zpow_natCast, ← zpow_add₀ two_ne_zero_nnrat]; congr 1; push_cast; ring
  have hp : (0 : ℚ≥0) < 2 ^ (k - (M : ℤ)) := by positivity
  constructor
  · rw [e1]; gcongr; exact Nat.le_add_right _ _
  · rw [e2]; gcongr; rw [pow_succ]; omega

/-- A subnormal magnitude lies below the smallest normal one. -/
theorem subnormal_magnitude_lt (P : Precision) (m : Nat) (h : m < 2 ^ P.M) : (m : ℚ≥0) * (2 : ℚ≥0) ^ (1 - (P.bias : ℤ) - (P.M : ℤ)) < 2 ^ (1 - (P.bias : ℤ)) := by
  have hp : (0 : ℚ≥0) < 2 ^ (1 - (P.bias : ℤ) - (P.M : ℤ)) := by positivity
  have e2 : (2 : ℚ≥0) ^ (1 - (P.bias : ℤ)) = (2 ^ P.M : ℕ) * 2 ^ (1 - (P.bias : ℤ) - (P.M : ℤ)) := by
    push_cast; rw [← zpow_natCast, ← zpow_add₀ two_ne_zero_nnrat]; congr 1; ring
  rw [e2]; gcongr

/-- In-range fields are read back from their value word (R41). -/
theorem fieldsOfWord_wordOfFields (f : Fields) (h : f.InRange .p64) : fieldsOfWord (wordOfFields f) = f := by
  rcases f with ⟨s, e, m⟩
  obtain ⟨he, hm⟩ := h
  simp only [Precision.emax_p64, Precision.M_p64] at he hm
  simp only [fieldsOfWord, wordOfFields, expPort, manPort, Fields.mk.injEq]
  refine ⟨?_, ?_, ?_⟩
  · ext i hi; simp; grind
  · have : (s ++ BitVec.ofNat 11 e ++ BitVec.ofNat 52 m).extractLsb' 52 11 = BitVec.ofNat 11 e := by
      ext i hi; simp; grind
    rw [this]; simp; omega
  · have : (s ++ BitVec.ofNat 11 e ++ BitVec.ofNat 52 m).extractLsb' 0 52 = BitVec.ofNat 52 m := by
      ext i hi; simp; grind
    rw [this]; simp; omega

/-- The fields of a value word are in range. -/
theorem fieldsOfWord_inRange (w : ValueWord) : (fieldsOfWord w).InRange .p64 := by
  simp only [fieldsOfWord, Fields.InRange, Precision.emax_p64, Precision.M_p64]
  constructor <;> omega

/-- In-range binary32 fields on the 11-bit and 52-bit ports: no padding bit set, and read back whole (R40, R49). -/
theorem ports_of_fields_p32 (f : Fields) (h : f.InRange .p32) : paddingSet .p32 (expPort f) (manPort f) = false ∧ fieldsOfPorts .p32 f.sign (expPort f) (manPort f) = f ∧ (expPort f).toNat = f.e ∧ (manPort f).toNat = f.m ∧ (expPort f).extractLsb' 8 3 = 0#3 ∧ (manPort f).extractLsb' 23 29 = 0#29 := by
  rcases f with ⟨s, e, m⟩
  obtain ⟨he, hm⟩ := h
  simp only [Precision.emax_p32, Precision.M_p32] at he hm
  have a : (BitVec.ofNat 11 e).extractLsb' 8 3 = 0#3 := by
    apply BitVec.eq_of_toNat_eq; simp [BitVec.extractLsb', Nat.shiftRight_eq_div_pow]; omega
  have b : (BitVec.ofNat 52 m).extractLsb' 23 29 = 0#29 := by
    apply BitVec.eq_of_toNat_eq; simp [BitVec.extractLsb', Nat.shiftRight_eq_div_pow]; omega
  refine ⟨by simp [paddingSet, expPort, manPort, a, b], ?_, ?_, ?_, a, b⟩
  · simp [fieldsOfPorts, expPort, manPort]; omega
  · simp [expPort]; omega
  · simp [manPort]; omega

/-- In-range binary64 fields on the ports, read back whole (R40). -/
theorem ports_of_fields_p64 (f : Fields) (h : f.InRange .p64) : paddingSet .p64 (expPort f) (manPort f) = false ∧ fieldsOfPorts .p64 f.sign (expPort f) (manPort f) = f ∧ (expPort f).toNat = f.e ∧ (manPort f).toNat = f.m := by
  rcases f with ⟨s, e, m⟩
  obtain ⟨he, hm⟩ := h
  simp only [Precision.emax_p64, Precision.M_p64] at he hm
  refine ⟨rfl, ?_, ?_, ?_⟩
  · simp [fieldsOfPorts, expPort, manPort]; omega
  · simp [expPort]; omega
  · simp [manPort]; omega

end Sys2Proof.Machine
end

