-- ==== Sys2Proof/Laws/Flags.lean ====
section
/-! SUPPORT. The fields of a status word, and classes and their codes. -/

namespace Sys2Proof.Machine

open Sys2Proof

@[simp] theorem statusDone_statusWord (d e : BitVec 1) (c k : BitVec 2) (p : BitVec 1) :
    statusDone (statusWord d e c k p) = d := by revert d e c k p; decide
@[simp] theorem statusErr_statusWord (d e : BitVec 1) (c k : BitVec 2) (p : BitVec 1) :
    statusErr (statusWord d e c k p) = e := by revert d e c k p; decide
@[simp] theorem statusCode_statusWord (d e : BitVec 1) (c k : BitVec 2) (p : BitVec 1) :
    statusCode (statusWord d e c k p) = c := by revert d e c k p; decide
@[simp] theorem statusKind_statusWord (d e : BitVec 1) (c k : BitVec 2) (p : BitVec 1) :
    statusKind (statusWord d e c k p) = k := by revert d e c k p; decide
@[simp] theorem statusPrec_statusWord (d e : BitVec 1) (c k : BitVec 2) (p : BitVec 1) :
    statusPrec (statusWord d e c k p) = p := by revert d e c k p; decide
@[simp] theorem statusReserved_statusWord (d e : BitVec 1) (c k : BitVec 2) (p : BitVec 1) :
    statusReserved (statusWord d e c k p) = 0#1 := by revert d e c k p; decide

/-- A status word with reserved bit 0 is the word of its own fields. -/
theorem statusWord_of_fields (w : BitVec 8) (h : statusReserved w = 0#1) :
    statusWord (statusDone w) (statusErr w) (statusCode w) (statusKind w) (statusPrec w) = w := by
  revert w; decide

@[simp] theorem classOfCode_classCode (c : DecimalCase) : classOfCode (classCode c) = some c := by
  cases c <;> rfl

/-- A code that names a class is that class's code. -/
theorem classCode_of_classOfCode {c : BitVec 3} {k : DecimalCase} (h : classOfCode c = some k) : classCode k = c := by
  revert c k; intro c; revert c; decide

/-- Everything `classify` can answer for an exponent in range, with the condition of each answer. -/
theorem classify_cases (P : Precision) {e : Nat} (m : Nat) (he : e ≤ P.emax) :
    (classify P e m = .zero ∧ e = 0 ∧ m = 0) ∨ (classify P e m = .subnormal ∧ e = 0 ∧ m ≠ 0) ∨
    (classify P e m = .infinity ∧ e = P.emax ∧ m = 0) ∨ (classify P e m = .nan ∧ e = P.emax ∧ m ≠ 0) ∨
    (classify P e m = .normal ∧ 0 < e ∧ e < P.emax) := by
  have hp : 0 ≠ P.emax := by cases P <;> decide
  by_cases h0 : e = 0
  · subst h0; by_cases hm : m = 0 <;> simp [classify, hm, hp]
  · by_cases h1 : e = P.emax
    · by_cases hm : m = 0 <;> simp [classify, h1, hm, hp.symm]
    · simp [classify, h0, h1]; omega

end Sys2Proof.Machine
end

