-- ==== Sys2Proof/Laws/PerInstr.lean ====
section
/-! SUPPORT. The statement made per instruction: every command is read back from the ports that present it. -/

namespace Sys2Proof.Laws.PortRoundTrip

open Sys2Proof

/-- The ports that present a command (R36) are read as that command, with every operand bit. -/
def Statement (i : Instr) : Prop := decodeCommand (encodeCommand i) = i

theorem dec32 (v : ValueWord) : Statement (.dec32 v) := rfl
theorem dec64 (v : ValueWord) : Statement (.dec64 v) := rfl
theorem enc32 (s : SignBit) (e : ExpPort) (m : ManPort) : Statement (.enc32 s e m) := rfl
theorem enc64 (s : SignBit) (e : ExpPort) (m : ManPort) : Statement (.enc64 s e m) := rfl

end Sys2Proof.Laws.PortRoundTrip
end

