-- ==== Sys2Proof/Laws/Reference.lean ====
section
/-! SUPPORT. What each loop of the source's algorithm computes (R66, R68, R69). -/

namespace Sys2Proof.Machine

open Sys2Proof

/-- The number of a list of bits, digit by digit. -/
theorem bitsValue_append (a b : List Bool) : bitsValue (a ++ b) = bitsValue a * 2 ^ b.length + bitsValue b := by
  have : ∀ (l : List Bool) (x : Nat), l.foldl (fun a b => 2 * a + (if b then 1 else 0)) x = x * 2 ^ l.length + bitsValue l := by
    intro l
    induction l with
    | nil => intro x; simp [bitsValue]
    | cons c l ih =>
      intro x
      have e : bitsValue (c :: l) = (2 * 0 + (if c then 1 else 0)) * 2 ^ l.length + bitsValue l := ih _
      rw [List.foldl_cons, ih, e]
      cases c <;> simp [pow_succ] <;> ring
  rw [bitsValue, List.foldl_append, this]; rfl

theorem bitsValue_lt (l : List Bool) : bitsValue l < 2 ^ l.length := by
  induction l with
  | nil => simp [bitsValue]
  | cons c l ih =>
    have := bitsValue_append [c] l
    simp only [List.singleton_append] at this
    rw [this, List.length_cons, pow_succ]
    have : bitsValue [c] ≤ 1 := by cases c <;> simp [bitsValue]
    nlinarith [Nat.mul_le_mul_right (2 ^ l.length) this]

/-- Repeated division by 2 collects the bits of n (R66). -/
theorem integerBits_spec : ∀ (fuel n : Nat), n < 2 ^ fuel → bitsValue (integerBits fuel n).reverse = n ∧ (integerBits fuel n).length = if n = 0 then 0 else Nat.log2 n + 1 := by
  intro fuel
  induction fuel with
  | zero => intro n h; have : n = 0 := by simpa using h
            subst this; simp [integerBits, bitsValue]
  | succ fuel ih =>
    intro n h
    by_cases h0 : n = 0
    · subst h0; simp [integerBits, bitsValue]
    · obtain ⟨a, b⟩ := ih (n / 2) (by rw [pow_succ] at h; omega)
      simp only [integerBits, h0, if_false, List.reverse_cons, bitsValue_append, a, List.length_cons, b]
      constructor
      · rcases Nat.mod_two_eq_zero_or_one n with h2 | h2 <;> simp [h2, bitsValue] <;> omega
      · rw [Nat.log2_def n]
        by_cases h1 : n / 2 = 0
        · rw [if_pos h1, if_neg (by omega)]
        · rw [if_neg h1, if_pos (by omega)]

/-- Doubling-and-subtract gives the next c bits of a fraction (R69). -/
theorem fractionBits_spec : ∀ (c : Nat) (f : ℚ), 0 ≤ f → f < 1 → (fractionBits c f).length = c ∧ bitsValue (fractionBits c f) = ⌊f * 2 ^ c⌋₊ := by
  intro c
  induction c with
  | zero => intro f h0 h1; simp [fractionBits, bitsValue]; symm; simpa [Nat.floor_eq_zero] using h1
  | succ c ih =>
    intro f h0 h1
    unfold fractionBits
    split
    · next h =>
      obtain ⟨a, b⟩ := ih (2 * f - 1) (by linarith) (by linarith)
      refine ⟨by simp [a], ?_⟩
      rw [← List.singleton_append, bitsValue_append, a, b]
      rw [show f * 2 ^ (c + 1) = (2 * f - 1) * 2 ^ c + (2 ^ c : ℕ) by push_cast; ring, Nat.floor_add_natCast (by have : 0 ≤ 2 * f - 1 := by linarith
                                                                                                                 positivity)]
      simp [bitsValue]; ring
    · next h =>
      obtain ⟨a, b⟩ := ih (2 * f) (by linarith) (by linarith)
      refine ⟨by simp [a], ?_⟩
      rw [← List.singleton_append, bitsValue_append, a, b]
      rw [show f * 2 ^ (c + 1) = (2 * f) * 2 ^ c by ring]
      simp [bitsValue]

/-- The two ways the search ends (R68): the leading 1 found after `i + 1` doublings, or the boundary `-bias` reached. -/
theorem searchLeading_spec (bias : Nat) (q : ℚ) (_ : 0 ≤ q) (hb : 2 ≤ bias) : ∀ (fuel j : Nat), j + fuel = bias → j + 2 ≤ bias → q * 2 ^ j < 1 →
    let r := searchLeading bias fuel (q * 2 ^ j) (-1 - (j : ℤ))
    (∃ i : Nat, i + 2 ≤ bias ∧ r = ⟨q * 2 ^ (i + 1) - 1, -1 - (i : ℤ), true⟩ ∧ 1 ≤ q * 2 ^ (i + 1) ∧ q * 2 ^ i < 1) ∨
    (r = ⟨q * 2 ^ (bias - 1), -(bias : ℤ), false⟩ ∧ q * 2 ^ (bias - 1) < 1) := by
  intro fuel
  induction fuel with
  | zero => intro j h1 h2; omega
  | succ fuel ih =>
    intro j h1 h2 h3
    have e : 2 * (q * 2 ^ j) = q * 2 ^ (j + 1) := by ring
    simp only [searchLeading, e]
    split
    · next h => left; exact ⟨j, h2, rfl, h, h3⟩
    · next h =>
      split
      · next g => right; have : bias - 1 = j + 1 := by omega
                  rw [this]; exact ⟨rfl, not_le.mp h⟩
      · next g =>
        have := ih (j + 1) (by omega) (by omega) (not_le.mp h)
        rw [show (-1 - ((j + 1 : ℕ) : ℤ)) = -1 - (j : ℤ) - 1 by push_cast; ring] at this
        exact this

theorem floor_ratCast (q : ℚ≥0) : ⌊(q : ℚ)⌋₊ = ⌊q⌋₊ := NNRat.floor_coe q

theorem floor_ratCast_mul_pow (q : ℚ≥0) (c : Nat) : ⌊(q : ℚ) * 2 ^ c⌋₊ = ⌊q * (2 : ℚ≥0) ^ (c : ℤ)⌋₊ := by
  rw [← floor_ratCast]; push_cast; rfl

/-- Dropping the first kept bit (R69). -/
theorem bitsValue_drop_one (l : List Bool) (b : Bool) (n : Nat) (hl : l.length = n + 1) (hb : l.head? = some b) : bitsValue (l.drop 1) = bitsValue l - (if b then 1 else 0) * 2 ^ n := by
  cases l with
  | nil => simp at hl
  | cons c l =>
    simp at hb hl; subst hb
    have := bitsValue_append [c] l
    simp only [List.singleton_append] at this
    rw [this, hl]; cases c <;> simp [bitsValue]

/-- Keeping the first n bits (R69). -/
theorem bitsValue_take (l : List Bool) (n : Nat) (h : n ≤ l.length) : bitsValue (l.take n) = bitsValue l / 2 ^ (l.length - n) := by
  conv_rhs => rw [← List.take_append_drop n l, bitsValue_append, List.length_append, List.length_drop, List.length_take, min_eq_left h, show n + (l.length - n) - n = l.length - n by omega]
  have := bitsValue_lt (l.drop n)
  rw [List.length_drop] at this
  rw [mul_comm, Nat.mul_add_div (by positivity), Nat.div_eq_of_lt this, add_zero]

theorem head_of_full_bitsValue (l : List Bool) (n : Nat) (hl : l.length = n + 1) (h : 2 ^ n ≤ bitsValue l) : l.head? = some true := by
  cases l with
  | nil => simp at hl
  | cons c l =>
    have := bitsValue_append [c] l
    simp only [List.singleton_append] at this
    have b := bitsValue_lt l
    simp at hl
    rw [this, hl] at h
    cases c
    · rw [hl] at b; simp [bitsValue] at h b; omega
    · rfl

end Sys2Proof.Machine
end

