-- ==== Sys2Proof/Laws/State.lean ====
section
/-! SUPPORT. One lemma per field of State and per update of it, so that no proof unfolds a record update. -/

namespace Sys2Proof.Machine

open Sys2Proof

@[simp] theorem writeFields_status (P : Precision) (f : Fields) (c : DecimalCase) (s : State) :
    (writeFields P f c s).status = some (statusWord 1#1 0#1 0#2 1#2 (precisionBit P)) := rfl
@[simp] theorem writeFields_rSign (P : Precision) (f : Fields) (c : DecimalCase) (s : State) :
    (writeFields P f c s).rSign = some f.sign := rfl
@[simp] theorem writeFields_rExp (P : Precision) (f : Fields) (c : DecimalCase) (s : State) :
    (writeFields P f c s).rExp = some (expPort f) := rfl
@[simp] theorem writeFields_rMan (P : Precision) (f : Fields) (c : DecimalCase) (s : State) :
    (writeFields P f c s).rMan = some (manPort f) := rfl
@[simp] theorem writeFields_rVal (P : Precision) (f : Fields) (c : DecimalCase) (s : State) :
    (writeFields P f c s).rVal = none := rfl
@[simp] theorem writeFields_rCls (P : Precision) (f : Fields) (c : DecimalCase) (s : State) :
    (writeFields P f c s).rCls = some (classCode c) := rfl
@[simp] theorem writeFields_edges (P : Precision) (f : Fields) (c : DecimalCase) (s : State) :
    (writeFields P f c s).edges = s.edges := rfl

@[simp] theorem writeValue_status (P : Precision) (w : ValueWord) (c : DecimalCase) (s : State) :
    (writeValue P w c s).status = some (statusWord 1#1 0#1 0#2 2#2 (precisionBit P)) := rfl
@[simp] theorem writeValue_rSign (P : Precision) (w : ValueWord) (c : DecimalCase) (s : State) :
    (writeValue P w c s).rSign = none := rfl
@[simp] theorem writeValue_rExp (P : Precision) (w : ValueWord) (c : DecimalCase) (s : State) :
    (writeValue P w c s).rExp = none := rfl
@[simp] theorem writeValue_rMan (P : Precision) (w : ValueWord) (c : DecimalCase) (s : State) :
    (writeValue P w c s).rMan = none := rfl
@[simp] theorem writeValue_rVal (P : Precision) (w : ValueWord) (c : DecimalCase) (s : State) :
    (writeValue P w c s).rVal = some w := rfl
@[simp] theorem writeValue_rCls (P : Precision) (w : ValueWord) (c : DecimalCase) (s : State) :
    (writeValue P w c s).rCls = some (classCode c) := rfl
@[simp] theorem writeValue_edges (P : Precision) (w : ValueWord) (c : DecimalCase) (s : State) :
    (writeValue P w c s).edges = s.edges := rfl

@[simp] theorem raiseError_status (x : CodecError) (s : State) :
    (raiseError x s).status = some (statusWord 1#1 1#1 (errorCode x) 0#2 0#1) := rfl
@[simp] theorem raiseError_rSign (x : CodecError) (s : State) :
    (raiseError x s).rSign = none := rfl
@[simp] theorem raiseError_rExp (x : CodecError) (s : State) :
    (raiseError x s).rExp = none := rfl
@[simp] theorem raiseError_rMan (x : CodecError) (s : State) :
    (raiseError x s).rMan = none := rfl
@[simp] theorem raiseError_rVal (x : CodecError) (s : State) :
    (raiseError x s).rVal = none := rfl
@[simp] theorem raiseError_rCls (x : CodecError) (s : State) :
    (raiseError x s).rCls = none := rfl
@[simp] theorem raiseError_edges (x : CodecError) (s : State) :
    (raiseError x s).edges = s.edges := rfl

@[simp] theorem resetRegisters_status (s : State) :
    (resetRegisters s).status = some 0x00#8 := rfl
@[simp] theorem resetRegisters_rSign (s : State) :
    (resetRegisters s).rSign = none := rfl
@[simp] theorem resetRegisters_rExp (s : State) :
    (resetRegisters s).rExp = none := rfl
@[simp] theorem resetRegisters_rMan (s : State) :
    (resetRegisters s).rMan = none := rfl
@[simp] theorem resetRegisters_rVal (s : State) :
    (resetRegisters s).rVal = none := rfl
@[simp] theorem resetRegisters_rCls (s : State) :
    (resetRegisters s).rCls = none := rfl
@[simp] theorem resetRegisters_edges (s : State) :
    (resetRegisters s).edges = s.edges := rfl

@[simp] theorem presentEdge_status (p : PortInputs) (s : State) :
    (presentEdge p s).status = s.status := rfl
@[simp] theorem presentEdge_rSign (p : PortInputs) (s : State) :
    (presentEdge p s).rSign = s.rSign := rfl
@[simp] theorem presentEdge_rExp (p : PortInputs) (s : State) :
    (presentEdge p s).rExp = s.rExp := rfl
@[simp] theorem presentEdge_rMan (p : PortInputs) (s : State) :
    (presentEdge p s).rMan = s.rMan := rfl
@[simp] theorem presentEdge_rVal (p : PortInputs) (s : State) :
    (presentEdge p s).rVal = s.rVal := rfl
@[simp] theorem presentEdge_rCls (p : PortInputs) (s : State) :
    (presentEdge p s).rCls = s.rCls := rfl
@[simp] theorem presentEdge_edges (p : PortInputs) (s : State) :
    (presentEdge p s).edges = p :: s.edges := rfl

@[simp] theorem writeOutcome_fields (P : Precision) (f : Fields) (c : DecimalCase) (s : State) :
    writeOutcome (.fields P f c) s = writeFields P f c s := rfl
@[simp] theorem writeOutcome_value (P : Precision) (w : ValueWord) (c : DecimalCase) (s : State) :
    writeOutcome (.value P w c) s = writeValue P w c s := rfl
@[simp] theorem writeOutcome_error (x : CodecError) (s : State) : writeOutcome (.error x) s = raiseError x s := rfl
@[simp] theorem writeOutcome_edges (r : CmdOutcome) (s : State) : (writeOutcome r s).edges = s.edges := by
  cases r <;> rfl

@[simp] theorem nextEdge_of_nil {s : State} (h : s.edges = []) : nextEdge s = none := by
  unfold nextEdge; rw [h]
@[simp] theorem nextEdge_of_cons {s : State} {p : PortInputs} {rest : List PortInputs} (h : s.edges = p :: rest) :
    nextEdge s = some (p, { s with edges := rest }) := by
  unfold nextEdge; rw [h]

@[simp] theorem held_some {w : Nat} (p : OutPort) (x : BitVec w) : held p (some x) = .ok x := rfl
@[simp] theorem held_none (w : Nat) (p : OutPort) : held (w := w) p none = .error (.portHoldsNone p) := rfl

end Sys2Proof.Machine
end

