-- ==== Sys2Proof/Laws/Step.lean ====
section
/-! SUPPORT. Everything `exec` and `step` can do, said once; proofs cite these and do not unfold them. -/

namespace Sys2Proof.Machine

open Sys2Proof

/-- Every command writes the outcome of its own operands and does nothing else. -/
theorem exec_eq (i : Instr) (s : State) : exec i s = .next (writeOutcome (outcomeOf i) s) := by
  cases i <;> rfl

/-- What writing an outcome leaves in the registers does not depend on the state it is written to. -/
theorem writeOutcome_sameRegisters (r : CmdOutcome) (s t : State) :
    SameRegisters (writeOutcome r s) (writeOutcome r t) := by
  cases r <;> simp [SameRegisters]

theorem step_nil {s : State} (h : s.edges = []) : step s = .next s := by
  simp only [step, nextEdge_of_nil h]

/-- A step that takes an edge, by the action of that edge. -/
theorem step_cons {s : State} {p : PortInputs} {rest : List PortInputs} (h : s.edges = p :: rest) :
    step s = match decodeEdge p with
      | .reset => .next (resetRegisters { s with edges := rest })
      | .idle => .next { s with edges := rest }
      | .command i => .next (writeOutcome (outcomeOf i) { s with edges := rest }) := by
  simp only [step, nextEdge_of_cons h]
  cases decodeEdge p <;> simp [exec_eq]

/-- Everything a step can do: if it answers a next state, one of these four cases holds. -/
theorem step_cases {s t : State} (h : step s = .next t) :
    (s.edges = [] ∧ t = s) ∨
    ∃ p rest, s.edges = p :: rest ∧
      ((decodeEdge p = .reset ∧ t = resetRegisters { s with edges := rest }) ∨
       (decodeEdge p = .idle ∧ t = { s with edges := rest }) ∨
       ∃ i, decodeEdge p = .command i ∧ t = writeOutcome (outcomeOf i) { s with edges := rest }) := by
  rcases he : s.edges with _ | ⟨p, rest⟩
  · rw [step_nil he] at h; exact .inl ⟨rfl, by injection h with h; exact h.symm⟩
  · refine .inr ⟨p, rest, rfl, ?_⟩
    rw [step_cons he] at h
    cases hd : decodeEdge p with
    | reset => rw [hd] at h; injection h with h; exact .inl ⟨rfl, h.symm⟩
    | idle => rw [hd] at h; injection h with h; exact .inr (.inl ⟨rfl, h.symm⟩)
    | command i => rw [hd] at h; injection h with h; exact .inr (.inr ⟨i, rfl, h.symm⟩)

/-- Which edges ask for which action (R27, R114). -/
theorem decodeEdge_reset {p : PortInputs} (h : p.rst = true) : decodeEdge p = .reset := by simp [decodeEdge, h]
theorem decodeEdge_idle {p : PortInputs} (h : p.rst = false) (h' : p.start = false) : decodeEdge p = .idle := by
  simp [decodeEdge, h, h']
theorem decodeEdge_command {p : PortInputs} (h : p.rst = false) (h' : p.start = true) :
    decodeEdge p = .command (decodeCommand p) := by simp [decodeEdge, h, h']

end Sys2Proof.Machine
end

