-- ==== Sys2Proof/Tests/Slice0.lean ====
section
/-! SUPPORT. The smoke test of WellFormed, the command words written out, two vectors of 95_test_vectors.md per command,
and for every statement with hypotheses a state and operands that meet them. -/

namespace Sys2Proof.Tests

open Sys2Proof Sys2Proof.Machine

/-! ### Well-formed commands -/

/-- `exp_in[8]` and `exp_in[10]` are padding of ENC32 (V-ENC32 rows 20, 22). -/
theorem test_enc32_exponent_padding_ill_formed :
    (Instr.enc32 0#1 0x100#11 0#52).WellFormed = false ∧ (Instr.enc32 0#1 0x400#11 0#52).WellFormed = false := by decide

/-- `man_in[23]` and `man_in[51]` are padding of ENC32 (V-ENC32 rows 21, 24). -/
theorem test_enc32_mantissa_padding_ill_formed :
    (Instr.enc32 0#1 0x07F#11 0x0000000800000#52).WellFormed = false ∧
    (Instr.enc32 0#1 0x07F#11 0x8000000000000#52).WellFormed = false := by decide

/-- The nearest accepted inputs, and a command without padding. -/
theorem test_well_formed_commands :
    (Instr.enc32 0#1 0x0FF#11 0x00000007FFFFF#52).WellFormed = true ∧
    (Instr.enc64 0#1 0x7FF#11 0xFFFFFFFFFFFFF#52).WellFormed = true ∧
    (Instr.dec32 0xFFFFFFFFFFFFFFFF#64).WellFormed = true ∧ (Instr.dec64 0#64).WellFormed = true := by decide

/-! ### Command words, bit by bit: `cmd[1]` = op (0 decode, 1 encode), `cmd[0]` = prec (0 for 32, 1 for 64) (R35) -/

/-- The ports of a sampling edge with operands that differ on every port. -/
def somePorts (op prec : BitVec 1) : PortInputs :=
  { rst := false, start := true, cmd := op ++ prec, valIn := 0x40091EB851EB851F#64, signIn := 1#1, expIn := 0x07F#11,
    manIn := 0x2AAAAA#52 }

theorem test_decode_dec32 : decodeEdge (somePorts 0#1 0#1) = .command (.dec32 0x40091EB851EB851F#64) := by decide
theorem test_decode_dec64 : decodeEdge (somePorts 0#1 1#1) = .command (.dec64 0x40091EB851EB851F#64) := by decide
theorem test_decode_enc32 : decodeEdge (somePorts 1#1 0#1) = .command (.enc32 1#1 0x07F#11 0x2AAAAA#52) := by decide
theorem test_decode_enc64 : decodeEdge (somePorts 1#1 1#1) = .command (.enc64 1#1 0x07F#11 0x2AAAAA#52) := by decide

/-- `cmd` has two bits: the number 4 fits no command port. -/
theorem test_decode_no_command_word : decodeTableWord 8 4 = none ∧ fitCommandWord 4 = .error (.notACommandWord 4) := by
  decide

/-- The instruction placed at the next edge is the one the next step runs. -/
theorem test_withFetchWord_runs_next :
    ((State.reset.withFetchWord 8 3).edges.map decodeEdge) = [.command (.enc64 0#1 0#11 0#52)] := by decide

/-! ### Vectors of 95_test_vectors.md, one step each -/

/-- The state after the next step from reset with one command presented. -/
def afterOne (i : Instr) : Option State :=
  match step (presentEdge (encodeCommand i) State.reset) with
  | .next t => some t
  | .fault _ => none
  | .refused _ => none

/-- V-DEC32 row 22: the last word below the saturation bound truncates to the largest finite fields. -/
theorem test_dec32_below_the_bound : afterOne (.dec32 0x47EFFFFFFFFFFFFF#64) =
    some ⟨some 0x11#8, some 0#1, some 0xFE#11, some 0x7FFFFF#52, none, some 4#3, []⟩ := by decide +kernel

/-- V-DEC32 row 15: the top subnormal bit has weight 2^-bias. -/
theorem test_dec32_top_subnormal_bit : afterOne (.dec32 0x3800000000000000#64) =
    some ⟨some 0x11#8, some 0#1, some 0x00#11, some 0x400000#52, none, some 1#3, []⟩ := by decide +kernel

/-- V-DEC64 row 13: a NaN keeps its sign and gets the all-ones mantissa. -/
theorem test_dec64_nan : afterOne (.dec64 0xFFF0000000000001#64) =
    some ⟨some 0x51#8, some 1#1, some 0x7FF#11, some 0xFFFFFFFFFFFFF#52, none, some 3#3, []⟩ := by decide +kernel

/-- V-DEC64 row 10: the largest subnormal is exact. -/
theorem test_dec64_largest_subnormal : afterOne (.dec64 0x000FFFFFFFFFFFFF#64) =
    some ⟨some 0x51#8, some 0#1, some 0x000#11, some 0xFFFFFFFFFFFFF#52, none, some 1#3, []⟩ := by decide +kernel

/-- V-ENC32 row 18: a binary32 subnormal is a normal value word, sign kept. -/
theorem test_enc32_subnormal : afterOne (.enc32 1#1 0x000#11 0x000002#52) =
    some ⟨some 0x21#8, none, none, none, some 0xB6B0000000000000#64, some 1#3, []⟩ := by decide +kernel

/-- V-ENC32 row 22: padding is an error and not the infinity of its low bits. -/
theorem test_enc32_padding : afterOne (.enc32 0#1 0x7FF#11 0#52) =
    some ⟨some 0x07#8, none, none, none, none, none, []⟩ := by decide +kernel

/-- V-ENC64 row 6: the NaN payload is replaced. -/
theorem test_enc64_nan : afterOne (.enc64 1#1 0x7FF#11 0x8000000000000#52) =
    some ⟨some 0x61#8, none, none, none, some 0xFFFFFFFFFFFFFFFF#64, some 3#3, []⟩ := by decide +kernel

/-- V-ENC64 row 4: the largest finite magnitude. -/
theorem test_enc64_largest_finite : afterOne (.enc64 0#1 0x7FE#11 0xFFFFFFFFFFFFF#52) =
    some ⟨some 0x61#8, none, none, none, some 0x7FEFFFFFFFFFFFFF#64, some 4#3, []⟩ := by decide +kernel

/-! ### Witnesses: states and operands that meet the hypotheses of the statements -/

/-- A reset edge. -/
def resetEdge : PortInputs := encodeEdge .reset
/-- An idle edge. -/
def idleEdge : PortInputs := encodeEdge .idle
/-- The state after DEC64 of 1.0, with edges still coming. -/
def holdsFields (l : List PortInputs) : State :=
  ⟨some 0x51#8, some 0#1, some 0x3FF#11, some 0#52, none, some 4#3, l⟩
/-- The state after ENC64 of 1.0, with edges still coming. -/
def holdsValue (l : List PortInputs) : State :=
  ⟨some 0x61#8, none, none, none, some 0x3FF0000000000000#64, some 4#3, l⟩

theorem witness_commandWords : (samplingEdge 0b00#2).cmd = 0b00#2 ∧ (samplingEdge 0b01#2).cmd = 0b01#2 ∧
    (samplingEdge 0b10#2).cmd = 0b10#2 ∧ (samplingEdge 0b11#2).cmd = 0b11#2 := by decide

theorem witness_edges : (holdsFields [somePorts 0#1 1#1]).edges = [somePorts 0#1 1#1] ∧
    (somePorts 0#1 1#1).rst = false ∧ (somePorts 0#1 1#1).start = true ∧
    idleEdge.rst = false ∧ idleEdge.start = false ∧ resetEdge.rst = true := by decide

/-- A state whose `done` is 1 and a step that returns it to 0. -/
theorem witness_done_returns_to_zero : step (holdsFields [resetEdge]) = .next State.reset ∧
    (holdsFields [resetEdge]).status = some 0x51#8 ∧ statusDone 0x51#8 = 1#1 ∧ State.reset.status = some 0x00#8 ∧
    statusDone 0x00#8 = 0#1 := ⟨rfl, rfl, rfl, rfl, rfl⟩

/-- Two reset edges that differ elsewhere, and a command right after a reset edge. -/
theorem witness_reset_priority : resetEdge.rst = true ∧ { somePorts 1#1 1#1 with rst := true }.rst = true ∧
    (holdsValue [resetEdge, somePorts 0#1 0#1]).edges = resetEdge :: somePorts 0#1 0#1 :: [] := by decide

/-- Two decode edges that differ on the ports a decode ignores, two encode edges that differ on the one an encode
ignores; both decode words and both encode words. -/
theorem witness_ignored_ports :
    (∀ prec : BitVec 1, (somePorts 0#1 prec).cmd = (samplingEdge (0#1 ++ prec)).cmd ∧
      ({ somePorts 0#1 prec with expIn := 0x7FF#11, manIn := 0xFFFFFFFFFFFFF#52 } : PortInputs).valIn =
        (somePorts 0#1 prec).valIn) ∧
    (∀ prec : BitVec 1, ({ somePorts 1#1 prec with valIn := 0#64 } : PortInputs).signIn = (somePorts 1#1 prec).signIn ∧
      (somePorts 1#1 prec).rst = false ∧ (somePorts 1#1 prec).start = true) := by decide

theorem witness_exec (i : Instr) : exec i State.reset = .next (writeOutcome (outcomeOf i) State.reset) := exec_eq i _

theorem witness_no_coming_edge : State.reset.edges = [] ∧ step State.reset = .next State.reset := ⟨rfl, rfl⟩

theorem inv_holdsFields (l : List PortInputs) : Inv (holdsFields l) :=
  ⟨by unfold StatusLegal; decide, fun h => absurd h (by decide),
    fun _ => ⟨0#1, 0x3FF#11, 0#52, rfl, rfl, rfl, rfl, by decide, rfl⟩, fun h => absurd h (by decide)⟩

theorem inv_holdsValue (l : List PortInputs) : Inv (holdsValue l) :=
  ⟨by unfold StatusLegal; decide, fun h => absurd h (by decide), fun h => absurd h (by decide),
    fun _ => ⟨0x3FF0000000000000#64, .normal, rfl, rfl, rfl, rfl, rfl⟩⟩

theorem inv_noResult (l : List PortInputs) : Inv { State.reset with edges := l } :=
  ⟨by unfold StatusLegal; decide, fun _ => ⟨rfl, rfl, rfl, rfl, rfl⟩, fun h => absurd h (by decide),
    fun h => absurd h (by decide)⟩

/-- States of every kind that meet the invariant, with a status and a coming edge of each sort. -/
theorem witness_invariant : Inv (holdsFields [resetEdge]) ∧ Inv (holdsValue [idleEdge]) ∧
    Inv { State.reset with edges := [somePorts 1#1 0#1] } ∧ statusKind 0x51#8 = 1#2 ∧ statusKind 0x61#8 = 2#2 ∧
    statusKind 0x00#8 = 0#2 ∧ step (holdsFields [resetEdge]) = .next State.reset :=
  ⟨inv_holdsFields _, inv_holdsValue _, inv_noResult _, rfl, rfl, rfl, rfl⟩

/-- The lowest and highest padding bit of each port, and the highest operand without padding. -/
theorem witness_padding : paddingSet .p32 0x100#11 0#52 = true ∧ paddingSet .p32 0x400#11 0#52 = true ∧
    paddingSet .p32 0#11 0x800000#52 = true ∧ paddingSet .p32 0#11 0x8000000000000#52 = true ∧
    (0x100#11).extractLsb' 8 3 ≠ 0#3 ∧ (0x800000#52).extractLsb' 23 29 ≠ 0#29 ∧
    (0xFF#11).extractLsb' 8 3 = 0#3 ∧ (0x7FFFFF#52).extractLsb' 23 29 = 0#29 ∧
    paddingSet .p32 0xFF#11 0x7FFFFF#52 = false := by decide

/-- Two erroneous commands in two states. -/
theorem witness_two_errors :
    exec (.enc32 0#1 0x100#11 0#52) (holdsFields []) = .next ⟨some 0x07#8, none, none, none, none, none, []⟩ ∧
    exec (.enc32 1#1 0#11 0x800000#52) (holdsValue []) = .next ⟨some 0x07#8, none, none, none, none, none, []⟩ ∧
    statusErr 0x07#8 = 1#1 := ⟨rfl, rfl, rfl⟩

/-- In-range fields at every boundary: zero, both ends of the subnormals, of the normals, infinity, both ends of the
NaNs. -/
theorem witness_in_range (P : Precision) (s : SignBit) :
    Fields.InRange P ⟨s, 0, 0⟩ ∧ Fields.InRange P ⟨s, 0, 1⟩ ∧ Fields.InRange P ⟨s, 0, 2 ^ P.M - 1⟩ ∧
    Fields.InRange P ⟨s, 1, 0⟩ ∧ Fields.InRange P ⟨s, P.emax - 1, 2 ^ P.M - 1⟩ ∧ Fields.InRange P ⟨s, P.emax, 0⟩ ∧
    Fields.InRange P ⟨s, P.emax, 1⟩ ∧ Fields.InRange P ⟨s, P.emax, 2 ^ P.M - 1⟩ := by
  have h := Nat.two_pow_pos P.M
  have h1 : 1 < 2 ^ P.M := by cases P <;> decide
  have h2 : 1 ≤ P.emax := by cases P <;> decide
  refine ⟨⟨?_, ?_⟩, ⟨?_, ?_⟩, ⟨?_, ?_⟩, ⟨?_, ?_⟩, ⟨?_, ?_⟩, ⟨?_, ?_⟩, ⟨?_, ?_⟩, ⟨?_, ?_⟩⟩ <;> dsimp only <;> omega

/-- A NaN triple, and triples that are none: one of them with itself meets the premises of `EncodeIsInjectiveOffNan`. -/
theorem witness_nan_fields (P : Precision) (s : SignBit) :
    NanFields P ⟨s, P.emax, 1⟩ ∧ ¬ NanFields P ⟨s, P.emax, 0⟩ ∧ ¬ NanFields P ⟨s, 0, 1⟩ := by
  cases P <;> simp [NanFields, Precision.emax, Precision.E]

/-- Words of the five cases of R42, and a finite word. -/
theorem witness_words : wordExp 0x7FF0000000000001#64 = 2047 ∧ wordFrac 0x7FF0000000000001#64 ≠ 0#52 ∧
    wordExp 0x7FF0000000000000#64 = 2047 ∧ wordFrac 0x7FF0000000000000#64 = 0#52 ∧
    wordExp 0x8000000000000000#64 = 0 ∧ wordFrac 0x8000000000000000#64 = 0#52 ∧
    wordExp 0x0000000000000001#64 = 0 ∧ wordFrac 0x0000000000000001#64 ≠ 0#52 ∧
    wordExp 0x7FEFFFFFFFFFFFFF#64 = 2046 ∧ wordExp 0x0010000000000000#64 = 1 ∧
    val64 0x8000000000000000#64 = .fin 1#1 0 := by decide +kernel

/-- A NaN word and a word that is none; the ends of the binary32 normal range and the first saturating word. -/
theorem witness_word_ranges : NanWord 0xFFF0000000000001#64 ∧ ¬ NanWord 0xFFF0000000000000#64 ∧
    wordExp 0x3810000000000000#64 = 897 ∧ wordExp 0x47EFFFFFFFFFFFFF#64 = 1150 ∧
    wordExp 0x47F0000000000000#64 = 1151 := by unfold NanWord; decide

/-- Magnitudes at the three boundaries of the decoder: the bound itself, the smallest normal with its exponent, zero,
and the order of two of them. -/
theorem witness_magnitudes (P : Precision) :
    (2 : ℚ≥0) ^ ((P.bias : ℤ) + 1) ≤ 2 ^ ((P.bias : ℤ) + 1) ∧
    (2 : ℚ≥0) ^ (1 - (P.bias : ℤ)) < 2 ^ ((P.bias : ℤ) + 1) ∧
    (2 : ℚ≥0) ^ (1 - (P.bias : ℤ)) ≤ 2 ^ (1 - (P.bias : ℤ)) ∧
    (2 : ℚ≥0) ^ (1 - (P.bias : ℤ)) < 2 ^ (1 - (P.bias : ℤ) + 1) ∧
    1 - (P.bias : ℤ) ≤ P.bias ∧ (0 : ℚ≥0) < 2 ^ (1 - (P.bias : ℤ)) := by
  have one : (1 : ℚ≥0) < 2 := by norm_num
  have := P.bias_pos
  exact ⟨le_rfl, zpow_lt_zpow_right₀ one (by omega), le_rfl, zpow_lt_zpow_right₀ one (by omega), by omega,
    by positivity⟩

/-- The precision constants' magnitudes of the two single-precision clauses of R83. -/
theorem witness_subnormal_magnitudes : (0 : ℚ≥0) < (2 : ℚ≥0) ^ (-126 : ℤ) ∧ (0 : ℚ≥0) < (2 : ℚ≥0) ^ (-1022 : ℤ) := by
  constructor <;> positivity

/-- Zero is representable, below every magnitude, and survives decode then encode. -/
theorem witness_representable (P : Precision) (s : SignBit) :
    Representable P 0 ∧ (0 : ℚ≥0) ≤ 0 ∧ encodeVal P (decodeVal P (.fin s 0)) = .fin s 0 := by
  refine ⟨.inl rfl, le_rfl, ?_⟩
  revert P s; rintro (_ | _) <;> decide +kernel

/-- The value 1 survives decode then encode and lies in the binade `k = 0`. -/
theorem witness_truncation_binade (P : Precision) (s : SignBit) :
    encodeVal P (decodeVal P (.fin s 1)) = .fin s 1 ∧ 1 - (P.bias : ℤ) ≤ 0 ∧ (0 : ℤ) ≤ P.bias ∧
    (2 : ℚ≥0) ^ (0 : ℤ) ≤ 1 ∧ (1 : ℚ≥0) < 2 ^ ((0 : ℤ) + 1) := by
  refine ⟨?_, ?_, ?_, by norm_num, by norm_num⟩
  · revert P s; rintro (_ | _) <;> decide +kernel
  all_goals cases P <;> decide

theorem witness_negative_argument : (-1 : ℚ) < 0 ∧ (0 : ℚ) ≤ 0 := by norm_num

/-- Two different instances of one platform. -/
theorem witness_platform : (0 : Nat) ≠ 1 ∧
    (Platform.mk [State.reset, holdsFields [resetEdge]]).blocks[1]? = some (holdsFields [resetEdge]) := by decide

end Sys2Proof.Tests
end

section
/-! PROOFS. The state after reset (R24) and the independence of an outcome from the state (R13). -/

namespace Sys2Proof.Machine

open Sys2Proof

/-- The status after reset is the word whose fields are all 0 (R24). -/
theorem reset_status : State.reset.status = some (statusWord 0#1 0#1 0#2 0#2 0#1) := rfl

theorem noResult_reset : NoResult State.reset := ⟨rfl, rfl, rfl, rfl, rfl⟩

/-- While `STATUS.done` is 0 there is no last outcome, whatever the other registers hold (R17, R23). -/
theorem lastOutcome_eq_none_of_done_zero {s : State} {w : BitVec 8} (hw : s.status = some w)
    (hd : statusDone w = 0#1) : lastOutcome s = none := by
  simp only [lastOutcome, hw, if_pos hd]

/-- Settles O3: the status after reset is the word of zero fields, and `done = 0` leaves no last outcome. -/
theorem resetLeavesZeroStatusAndNoResult : Obligations.ResetLeavesZeroStatusAndNoResult := by
  refine ⟨⟨_, reset_status, ?_⟩, noResult_reset, ?_⟩
  · simp
  · exact lastOutcome_eq_none_of_done_zero reset_status (statusDone_statusWord ..)

/-- Settles O9: a command writes the outcome of its own operands, and what that leaves in the registers does not depend
on the state written to. -/
theorem outcomeIsIndependentOfTheState : Obligations.OutcomeIsIndependentOfTheState :=
  fun i s s' => ⟨_, _, exec_eq i s, exec_eq i s', writeOutcome_sameRegisters (outcomeOf i) s s'⟩

end Sys2Proof.Machine
end

section
/-! PROOFS. What a step does at each kind of edge (R27), and that a command reads only the ports it uses (R28). -/

namespace Sys2Proof.Machine

open Sys2Proof

/-! ### A step at each kind of edge -/

theorem step_reset {s : State} {p : PortInputs} {rest : List PortInputs} (h : s.edges = p :: rest)
    (hr : p.rst = true) : step s = .next { State.reset with edges := rest } := by
  simp only [step_cons h, decodeEdge_reset hr, resetRegisters]

theorem step_idle {s : State} {p : PortInputs} {rest : List PortInputs} (h : s.edges = p :: rest)
    (hr : p.rst = false) (hs : p.start = false) : step s = .next { s with edges := rest } := by
  simp only [step_cons h, decodeEdge_idle hr hs]

theorem step_command {s : State} {p : PortInputs} {rest : List PortInputs} (h : s.edges = p :: rest)
    (hr : p.rst = false) (hs : p.start = true) :
    step s = exec (decodeCommand p) { s with edges := rest } := by
  simp only [step_cons h, decodeEdge_command hr hs, exec_eq]

/-- Settles O4: one clause for each action an edge can ask for. -/
theorem stepRunsTheCommandAtASamplingEdge : Obligations.StepRunsTheCommandAtASamplingEdge :=
  fun _ _ _ h => ⟨step_command h, step_idle h, step_reset h⟩

/-! ### The ports a command reads -/

theorem decodeCommand_dec32 {p : PortInputs} (h : p.cmd = 0b00#2) : decodeCommand p = .dec32 p.valIn := by
  simp [decodeCommand, h]
theorem decodeCommand_dec64 {p : PortInputs} (h : p.cmd = 0b01#2) : decodeCommand p = .dec64 p.valIn := by
  simp [decodeCommand, h]
theorem decodeCommand_enc32 {p : PortInputs} (h : p.cmd = 0b10#2) :
    decodeCommand p = .enc32 p.signIn p.expIn p.manIn := by simp [decodeCommand, h]
theorem decodeCommand_enc64 {p : PortInputs} (h : p.cmd = 0b11#2) :
    decodeCommand p = .enc64 p.signIn p.expIn p.manIn := by simp [decodeCommand, h]

/-- The instruction a decode word presents is fixed by `cmd` and `val_in`. -/
theorem decodeCommand_congr_valIn {p q : PortInputs} (hc : p.cmd = 0b00#2 ∨ p.cmd = 0b01#2) (h : p.cmd = q.cmd)
    (hv : p.valIn = q.valIn) : decodeCommand p = decodeCommand q := by
  rcases hc with hc | hc
  · rw [decodeCommand_dec32 hc, decodeCommand_dec32 (h ▸ hc), hv]
  · rw [decodeCommand_dec64 hc, decodeCommand_dec64 (h ▸ hc), hv]

/-- The instruction an encode word presents is fixed by `cmd` and the three field ports. -/
theorem decodeCommand_congr_fieldPorts {p q : PortInputs} (hc : p.cmd = 0b10#2 ∨ p.cmd = 0b11#2) (h : p.cmd = q.cmd)
    (hsg : p.signIn = q.signIn) (he : p.expIn = q.expIn) (hm : p.manIn = q.manIn) :
    decodeCommand p = decodeCommand q := by
  rcases hc with hc | hc
  · rw [decodeCommand_enc32 hc, decodeCommand_enc32 (h ▸ hc), hsg, he, hm]
  · rw [decodeCommand_enc64 hc, decodeCommand_enc64 (h ▸ hc), hsg, he, hm]

/-- A decode word asks for the outcome of a decode in one of the two precisions. -/
theorem outcomeOf_decodeCommand_of_decode_word {p : PortInputs} (hc : p.cmd = 0b00#2 ∨ p.cmd = 0b01#2) :
    ∃ P, outcomeOf (decodeCommand p) = decodeOutcome P p.valIn := by
  rcases hc with hc | hc
  · exact ⟨.p32, by rw [decodeCommand_dec32 hc]; rfl⟩
  · exact ⟨.p64, by rw [decodeCommand_dec64 hc]; rfl⟩

/-- A decode leaves the status of a result that is `Fields`, whatever the value word (R72, R78). -/
@[simp] theorem writeOutcome_decodeOutcome_status (P : Precision) (v : ValueWord) (s : State) :
    (writeOutcome (decodeOutcome P v) s).status = some (statusWord 1#1 0#1 0#2 1#2 (precisionBit P)) := rfl

/-- A step at a sampling edge depends on the edge only through the instruction presented. -/
theorem step_eq_of_decodeCommand_eq (s : State) {p q : PortInputs} (rest : List PortInputs) (hp : p.rst = false)
    (hq : q.rst = false) (sp : p.start = true) (sq : q.start = true) (h : decodeCommand p = decodeCommand q) :
    step { s with edges := p :: rest } = step { s with edges := q :: rest } := by
  rw [step_command rfl hp sp, step_command rfl hq sq, h]

/-- A step at a sampling edge with a decode word raises no error (R28, R72). -/
theorem step_decode_statusErr {s : State} {p : PortInputs} {rest : List PortInputs} (h : s.edges = p :: rest)
    (hr : p.rst = false) (hs : p.start = true) (hc : p.cmd = 0b00#2 ∨ p.cmd = 0b01#2) :
    ∃ t w, step s = .next t ∧ t.status = some w ∧ statusErr w = 0#1 := by
  obtain ⟨P, hP⟩ := outcomeOf_decodeCommand_of_decode_word hc
  refine ⟨_, _, ?_, writeOutcome_decodeOutcome_status P p.valIn { s with edges := rest }, statusErr_statusWord ..⟩
  rw [step_command h hr hs, exec_eq, hP]

/-- Settles O8: the step runs the instruction presented, which holds the operands of the ports its command uses and of
no other; a decode leaves `err = 0`. -/
theorem ignoredPortsDoNotAffectTheStep : Obligations.IgnoredPortsDoNotAffectTheStep := by
  intro s p q rest hp hq sp sq h
  refine ⟨fun hc hv => ⟨?_, step_decode_statusErr rfl hp sp hc⟩, fun hc hsg he hm => ?_⟩
  · exact step_eq_of_decodeCommand_eq s rest hp hq sp sq (decodeCommand_congr_valIn hc h hv)
  · exact step_eq_of_decodeCommand_eq s rest hp hq sp sq (decodeCommand_congr_fieldPorts hc h hsg he hm)

end Sys2Proof.Machine
end

section
/-! PROOFS. Decoded fields are in range (R49, R62), so a DEC32 result fed back to ENC32 sets no padding bit. -/

namespace Sys2Proof.Machine

open Sys2Proof

/-! ### Decoded fields are in range -/

theorem infinityFields_inRange (P : Precision) (s : SignBit) : (infinityFields P s).InRange P :=
  ⟨le_rfl, Nat.two_pow_pos P.M⟩

theorem nanFields_inRange (P : Precision) (s : SignBit) : (nanFields P s).InRange P :=
  ⟨le_rfl, Nat.sub_lt (Nat.two_pow_pos P.M) one_pos⟩

/-- A finite value decodes into range, by the three ranges of its magnitude: saturated, subnormal, normal. -/
theorem decodeVal_fin_inRange (P : Precision) (s : SignBit) (q : ℚ≥0) : (decodeVal P (.fin s q)).InRange P := by
  obtain hsat | hsub | ⟨k, hlo, hhi, hk, hk'⟩ := magnitude_cases P q
  · rw [decodeVal_saturates s hsat]
    exact infinityFields_inRange P s
  · rw [decodeVal_subnormal s hsub]
    exact ⟨Nat.zero_le _, subnormal_window P hsub⟩
  · rw [decodeVal_normal s hk hk' hlo hhi]
    obtain ⟨hmin, hmax⟩ := window_bounds P.M hk hk'
    have hemax := P.emax_eq
    rw [pow_succ] at hmax
    constructor <;> dsimp only <;> omega

/-- Every value decodes into range (R49, R61, R62). -/
theorem decodeVal_inRange (P : Precision) (v : Val) : (decodeVal P v).InRange P := by
  cases v with
  | nan s => exact nanFields_inRange P s
  | inf s => exact infinityFields_inRange P s
  | fin s q => exact decodeVal_fin_inRange P s q

/-! ### ENC32 without a padding bit set -/

/-- With no padding bit set, an encode leaves the status of a result that is `Value` (R55). -/
theorem writeOutcome_encodeOutcome_status {P : Precision} {e : ExpPort} {m : ManPort}
    (h : paddingSet P e m = false) (sg : SignBit) (s : State) :
    (writeOutcome (encodeOutcome P sg e m) s).status = some (statusWord 1#1 0#1 0#2 2#2 (precisionBit P)) := by
  simp [encodeOutcome, h]

/-- ENC32 raises no error when no padding bit is set (R100). -/
theorem exec_enc32_statusErr {e : ExpPort} {m : ManPort} (h : paddingSet .p32 e m = false) (sg : SignBit)
    (s : State) : ∃ u w, exec (.enc32 sg e m) s = .next u ∧ u.status = some w ∧ statusErr w = 0#1 :=
  ⟨_, _, exec_eq _ s, writeOutcome_encodeOutcome_status h sg s, statusErr_statusWord ..⟩

/-- Settles O30: the decoded fields are in range, so `ports_of_fields_p32` says how their ports read and that ENC32
finds no padding bit set on them. -/
theorem dec32PadsItsFieldsWithZeros : Obligations.Dec32PadsItsFieldsWithZeros := by
  intro v s
  obtain ⟨hpad, -, he, hm, hepad, hmpad⟩ :=
    ports_of_fields_p32 (decodeVal .p32 (val64 v)) (decodeVal_inRange .p32 (val64 v))
  exact ⟨_, _, _, exec_eq (.dec32 v) s, rfl, rfl, hepad, hmpad, he, hm, fun sg => exec_enc32_statusErr hpad sg _⟩

end Sys2Proof.Machine
end

section
/-! PROOFS. The encoder is the five-case function of the spec (R51), and the whole next state of the ENCODE commands
(R55). -/

namespace Sys2Proof.Machine

open Sys2Proof

/-! ### The spec's formulas for the value of a triple -/

/-- The spec's formula for a subnormal value, against the one `encodeVal` computes. -/
theorem subnormal_formula (P : Precision) (m : Nat) :
    (2 : ℚ≥0) ^ (1 - (P.bias : ℤ)) * ((m : ℚ≥0) / (2 : ℚ≥0) ^ P.M) =
      (m : ℚ≥0) * (2 : ℚ≥0) ^ (1 - (P.bias : ℤ) - (P.M : ℤ)) := by
  rw [zpow_sub₀ two_ne_zero_nnrat _ (P.M : ℤ), zpow_natCast, mul_div_left_comm]

theorem encodeVal_zero (P : Precision) (s : SignBit) : encodeVal P ⟨s, 0, 0⟩ = .fin s 0 := by
  rw [encodeVal_subnormal, Nat.cast_zero, zero_mul]

/-- Settles O31: one lemma about `encodeVal` for each class of fields, and the spec's formula where the model computes
another form of it. -/
theorem encodeIsTheFiveCaseFunction : Obligations.EncodeIsTheFiveCaseFunction := by
  intro P s e m _ _
  refine ⟨?zero, ?subnormal, ?infinity, ?nan, ?normal⟩
  case zero => rintro rfl rfl; exact encodeVal_zero P s
  case subnormal => rintro rfl -; rw [subnormal_formula, encodeVal_subnormal]
  case infinity => rintro rfl rfl; exact encodeVal_infinity P s
  case nan => rintro rfl hm; exact encodeVal_nan P s m hm
  case normal => intro h0 h1; rw [normal_formula, encodeVal_normal P s e m h0 h1]

/-! ### What an ENCODE command reads from its ports -/

theorem paddingSet_p32_eq_false_iff (e : ExpPort) (m : ManPort) :
    paddingSet .p32 e m = false ↔ e.extractLsb' 8 3 = 0#3 ∧ m.extractLsb' 23 29 = 0#29 := by
  simp [paddingSet]

theorem paddingSet_p32_eq_true_iff (e : ExpPort) (m : ManPort) :
    paddingSet .p32 e m = true ↔ e.extractLsb' 8 3 ≠ 0#3 ∨ m.extractLsb' 23 29 ≠ 0#29 := by
  simp [paddingSet]

/-- ENC64 takes its two ports whole (R40). -/
theorem fieldsOfPorts_p64 (sg : SignBit) (e : ExpPort) (m : ManPort) :
    fieldsOfPorts .p64 sg e m = ⟨sg, e.toNat, m.toNat⟩ := by
  simp [fieldsOfPorts]

/-! ### The state an ENCODE command leaves -/

/-- With no padding bit set, an encode writes the value word and the class of the fields on the ports (R55). -/
theorem writeOutcome_encodeOutcome_of_no_padding {P : Precision} {e : ExpPort} {m : ManPort}
    (h : paddingSet P e m = false) (sg : SignBit) (s : State) :
    writeOutcome (encodeOutcome P sg e m) s =
      writeValue P (word64 (encodeVal P (fieldsOfPorts P sg e m)))
        (classify P (fieldsOfPorts P sg e m).e (fieldsOfPorts P sg e m).m) s := by
  simp [encodeOutcome, h]

/-- With a padding bit set, an encode ends with `InvalidInput` (R100). -/
theorem writeOutcome_encodeOutcome_of_padding {P : Precision} {e : ExpPort} {m : ManPort}
    (h : paddingSet P e m = true) (sg : SignBit) (s : State) :
    writeOutcome (encodeOutcome P sg e m) s = raiseError .invalidInput s := by
  simp [encodeOutcome, h]

/-- Settles O23: `exec_eq` gives the outcome, the padding check selects its case, and `writeValue` and `raiseError`
are the whole next states. -/
theorem encodeCommandsWriteTheValueOfTheFields : Obligations.EncodeCommandsWriteTheValueOfTheFields := by
  intro sg e m s
  refine ⟨fun he hm => ?_, fun hpad => ?_, ?_⟩
  · have hpad := (paddingSet_p32_eq_false_iff e m).2 ⟨he, hm⟩
    rw [exec_eq, outcomeOf, writeOutcome_encodeOutcome_of_no_padding hpad]
    rfl
  · rw [exec_eq, outcomeOf, writeOutcome_encodeOutcome_of_padding ((paddingSet_p32_eq_true_iff e m).2 hpad)]
    rfl
  · rw [exec_eq, outcomeOf, writeOutcome_encodeOutcome_of_no_padding rfl, fieldsOfPorts_p64]
    rfl

end Sys2Proof.Machine
end

section
/-! PROOFS. The sign of a decode (R63), and the whole next state of the DECODE commands (R78). -/

namespace Sys2Proof.Machine

open Sys2Proof

/-! ### The sign of a decode -/

/-- The value of fields carries their sign, in all five classes (R51). -/
theorem withSign_encodeVal (P : Precision) (f : Fields) : withSign f.sign (encodeVal P f) = encodeVal P f := by
  unfold encodeVal
  cases classify P f.e f.m <;> rfl

/-- A finite value keeps its sign in each of the three ranges of its magnitude. -/
theorem decodeVal_fin_sign (P : Precision) (s : SignBit) (q : ℚ≥0) : (decodeVal P (.fin s q)).sign = s := by
  obtain hsat | hsub | ⟨k, hlo, hhi, hk, hk'⟩ := magnitude_cases P q
  · rw [decodeVal_saturates s hsat, infinityFields]
  · rw [decodeVal_subnormal s hsub]
  · rw [decodeVal_normal s hk hk' hlo hhi]

/-- Whatever the value, its sign is the sign of the decoded fields (R63). -/
theorem decodeVal_withSign_sign (P : Precision) (s : SignBit) (v : Val) : (decodeVal P (withSign s v)).sign = s := by
  cases v with
  | nan _ => rfl
  | inf _ => rfl
  | fin _ q => exact decodeVal_fin_sign P s q

/-- The sign of a decoded word is its bit 63. -/
theorem decodeVal_val64_sign (P : Precision) (w : ValueWord) : (decodeVal P (val64 w)).sign = wordSign w := by
  rw [val64, ← withSign_encodeVal]
  exact decodeVal_withSign_sign P _ _

/-! ### The state a DECODE command leaves -/

/-- A decode writes the decoded fields and their class, whatever the word and the state (R78). -/
theorem writeOutcome_decodeOutcome (P : Precision) (v : ValueWord) (s : State) :
    writeOutcome (decodeOutcome P v) s =
      writeFields P (decodeVal P (val64 v)) (classify P (decodeVal P (val64 v)).e (decodeVal P (val64 v)).m) s := rfl

/-- A decode leaves bit 63 of the word in `R_SIGN` (R63). -/
theorem writeOutcome_decodeOutcome_rSign (P : Precision) (v : ValueWord) (s : State) :
    (writeOutcome (decodeOutcome P v) s).rSign = some (wordSign v) := by
  rw [writeOutcome_decodeOutcome, writeFields_rSign, decodeVal_val64_sign]

/-- Settles O28: each form of a value carries its sign through the decode, and the sign of a word's value is bit 63. -/
theorem decodeCopiesTheSignBit : Obligations.DecodeCopiesTheSignBit :=
  ⟨fun P s q => ⟨rfl, rfl, decodeVal_fin_sign P s q⟩,
    fun v s => ⟨_, _, exec_eq _ s, exec_eq _ s, writeOutcome_decodeOutcome_rSign .p32 v s,
      writeOutcome_decodeOutcome_rSign .p64 v s⟩⟩

/-- Settles O40: decoded fields are in range by the ranges of the magnitude, and a decode leaves the status of a result
that is `Fields`. -/
theorem decodeAlwaysProducesValidFields : Obligations.DecodeAlwaysProducesValidFields :=
  ⟨decodeVal_inRange, fun v s => ⟨_, _, _, _, exec_eq _ s, exec_eq _ s,
    writeOutcome_decodeOutcome_status .p32 v s, writeOutcome_decodeOutcome_status .p64 v s,
    statusErr_statusWord .., statusErr_statusWord ..⟩⟩

/-- Settles O22: `exec_eq` gives the outcome, and `writeFields` of the decoded fields is the whole next state. -/
theorem decodeCommandsWriteTheFieldsOfTheValue : Obligations.DecodeCommandsWriteTheFieldsOfTheValue := by
  intro v s
  constructor
  · rw [exec_eq, outcomeOf, writeOutcome_decodeOutcome]
    rfl
  · rw [exec_eq, outcomeOf, writeOutcome_decodeOutcome]
    rfl

end Sys2Proof.Machine
end

section
/-! PROOFS. The normalisation refuses exactly negative arguments, and no command ends with `InternalNegative` (R73). -/

namespace Sys2Proof.Machine

open Sys2Proof

/-! ### The normalisation and its caller -/

theorem normalise_of_neg (P : Precision) {x : ℚ} (h : x < 0) : normalise P x = .error .internalNegative :=
  if_pos h

/-- On an argument that is not negative each of the three ways through the normalisation ends in a result: saturated,
below 1, with an integer part. -/
theorem normalise_of_nonneg (P : Precision) {x : ℚ} (h : 0 ≤ x) : ∃ r, normalise P x = .ok r := by
  rw [normalise, if_neg (not_lt.mpr h)]
  dsimp only
  split
  · exact ⟨_, rfl⟩
  · split <;> exact ⟨_, rfl⟩

/-- The decoder hands the normalisation a magnitude only, so it never meets the refusal. -/
theorem decodeRef_ok (P : Precision) (v : Val) : ∃ f, decodeRef P v = .ok f := by
  cases v with
  | nan s => exact ⟨_, rfl⟩
  | inf s => exact ⟨_, rfl⟩
  | fin s q =>
    obtain ⟨⟨e, m⟩, hr⟩ := normalise_of_nonneg P (NNRat.coe_nonneg q)
    exact ⟨⟨s, e, m⟩, by simp only [decodeRef, hr]⟩

/-! ### The error code a command leaves -/

/-- An encode ends with a value or with `InvalidInput` (R100). -/
theorem encodeOutcome_ne_internalNegative (P : Precision) (sg : SignBit) (e : ExpPort) (m : ManPort) :
    encodeOutcome P sg e m ≠ .error .internalNegative := by
  unfold encodeOutcome
  split <;> simp

theorem outcomeOf_ne_internalNegative (i : Instr) : outcomeOf i ≠ .error .internalNegative := by
  cases i with
  | dec32 v => exact CmdOutcome.noConfusion
  | dec64 v => exact CmdOutcome.noConfusion
  | enc32 sg e m => exact encodeOutcome_ne_internalNegative .p32 sg e m
  | enc64 sg e m => exact encodeOutcome_ne_internalNegative .p64 sg e m

/-- `STATUS.code` is 2 after the outcome `InternalNegative` and after no other (R46). -/
theorem statusCode_eq_two_iff {r : CmdOutcome} {s : State} {w : BitVec 8} (h : (writeOutcome r s).status = some w) :
    statusCode w = 2#2 ↔ r = .error .internalNegative := by
  cases r with
  | fields P f c =>
    rw [writeOutcome_fields, writeFields_status, Option.some_inj] at h
    simp [← h]
  | value P v c =>
    rw [writeOutcome_value, writeValue_status, Option.some_inj] at h
    simp [← h]
  | error x =>
    rw [writeOutcome_error, raiseError_status, Option.some_inj] at h
    cases x <;> simp [← h, errorCode]

/-- Settles O42: the test on the sign is the normalisation's only refusal, the decoder passes it magnitudes, and no
command's outcome is the error that code 2 stands for. -/
theorem normalisationRefusesExactlyNegativeArguments : Obligations.NormalisationRefusesExactlyNegativeArguments := by
  refine ⟨fun P x => normalise_of_neg P, fun P x => normalise_of_nonneg P, decodeRef_ok, ?_⟩
  intro i s t w hexec hstatus hcode
  rw [exec_eq, Host.Outcome.next.injEq] at hexec
  subst hexec
  exact outcomeOf_ne_internalNegative i ((statusCode_eq_two_iff hstatus).1 hcode)

end Sys2Proof.Machine
end

section
/-! PROOFS. The words of exponent 2047, NaNs and infinities, decoded (R64, R65). -/

namespace Sys2Proof.Machine

open Sys2Proof

/-- The fields of a word by its three named parts (R41). -/
theorem fieldsOfWord_eq (w : ValueWord) : fieldsOfWord w = ⟨wordSign w, wordExp w, (wordFrac w).toNat⟩ := rfl

/-- A word of exponent 2047 and fraction 0 denotes an infinity (R42). -/
theorem val64_of_infinity_word {w : ValueWord} (he : wordExp w = 2047) (hf : wordFrac w = 0#52) :
    val64 w = .inf (wordSign w) := by
  rw [val64, fieldsOfWord_eq, he, hf]
  exact encodeVal_infinity .p64 _

/-- A NaN word denotes the NaN of its sign, whatever its fraction (R42). -/
theorem val64_of_nanWord {w : ValueWord} (h : NanWord w) : val64 w = .nan (wordSign w) := by
  obtain ⟨he, hf⟩ := h
  rw [val64, fieldsOfWord_eq, he]
  exact encodeVal_nan .p64 _ _ fun h0 => hf (BitVec.eq_of_toNat_eq h0)

theorem decodeVal_of_infinity_word (P : Precision) {w : ValueWord} (he : wordExp w = 2047)
    (hf : wordFrac w = 0#52) : decodeVal P (val64 w) = infinityFields P (wordSign w) := by
  rw [val64_of_infinity_word he hf, decodeVal]

theorem decodeVal_of_nanWord (P : Precision) {w : ValueWord} (h : NanWord w) :
    decodeVal P (val64 w) = nanFields P (wordSign w) := by
  rw [val64_of_nanWord h, decodeVal]

/-- A decode of a NaN word leaves class 3 (R64). -/
theorem writeOutcome_decodeOutcome_rCls_of_nanWord (P : Precision) {w : ValueWord} (h : NanWord w) (s : State) :
    (writeOutcome (decodeOutcome P w) s).rCls = some 3#3 := by
  rw [writeOutcome_decodeOutcome, writeFields_rCls, decodeVal_of_nanWord P h]
  cases P <;> rfl

/-- A decode of an infinity leaves class 2 (R65). -/
theorem writeOutcome_decodeOutcome_rCls_of_infinity_word (P : Precision) {w : ValueWord} (he : wordExp w = 2047)
    (hf : wordFrac w = 0#52) (s : State) : (writeOutcome (decodeOutcome P w) s).rCls = some 2#3 := by
  rw [writeOutcome_decodeOutcome, writeFields_rCls, decodeVal_of_infinity_word P he hf]
  cases P <;> rfl

/-- The NaN word of 42_special_cases.md: sign 1, payload 1. -/
theorem nanWord_example : NanWord 0xFFF0000000000001#64 := by
  unfold NanWord
  decide

/-- The word of the positive infinity of 42_special_cases.md. -/
theorem infinity_word_example :
    wordExp 0x7FF0000000000000#64 = 2047 ∧ wordFrac 0x7FF0000000000000#64 = 0#52 := by decide

/-- Settles O43: a word of exponent 2047 denotes an infinity or a NaN by its fraction, which decodes to fields that
keep the sign alone; the examples are words of the two kinds. -/
theorem nanAndInfinityDecode : Obligations.NanAndInfinityDecode := by
  obtain ⟨he, hf⟩ := infinity_word_example
  refine ⟨fun P s => ⟨rfl, rfl⟩, fun s => ⟨rfl, rfl⟩, fun P w hexp => ?word, ?packNan, ?packInf, fun s => ?ports⟩
  case word =>
    split
    · next hfrac => exact decodeVal_of_infinity_word P hexp hfrac
    · next hfrac => exact decodeVal_of_nanWord P ⟨hexp, hfrac⟩
  case packNan =>
    rw [decodeVal_of_nanWord .p32 nanWord_example]
    rfl
  case packInf =>
    rw [decodeVal_of_infinity_word .p64 he hf]
    rfl
  case ports =>
    exact ⟨_, _, exec_eq _ s, writeOutcome_decodeOutcome_rCls_of_nanWord .p32 nanWord_example s,
      exec_eq _ s, writeOutcome_decodeOutcome_rCls_of_infinity_word .p64 he hf s⟩

end Sys2Proof.Machine
end

section
/-! PROOFS. The registers ENC32 and DEC32 leave once the fields are known, and subnormal magnitudes in both directions
(R82, R83). -/

namespace Sys2Proof.Machine

open Sys2Proof

/-! ### The registers a command leaves, for fields already known -/

/-- ENC32 without padding, once the fields on its ports, their value word and their class code are known (R55). -/
theorem exec_enc32_of_fields {sg : SignBit} {e : ExpPort} {m : ManPort} {f : Fields} {v : Val} {w : ValueWord}
    {c : DecimalCase} (hpad : paddingSet .p32 e m = false) (hf : fieldsOfPorts .p32 sg e m = f)
    (hv : encodeVal .p32 f = v) (hw : word64 v = w) (hc : classify .p32 f.e f.m = c) (s : State) :
    ∃ t, exec (.enc32 sg e m) s = .next t ∧ t.rVal = some w ∧ t.rCls = some (classCode c) := by
  refine ⟨_, exec_eq _ s, ?_⟩
  rw [outcomeOf, writeOutcome_encodeOutcome_of_no_padding hpad, hf, hv, hw, hc]
  exact ⟨writeValue_rVal .., writeValue_rCls ..⟩

/-- DEC32, once the fields of the word's value and their class are known (R78). -/
theorem exec_dec32_of_fields {w : ValueWord} {f : Fields} {c : DecimalCase} (hf : decodeVal .p32 (val64 w) = f)
    (hc : classify .p32 f.e f.m = c) (s : State) :
    ∃ t, exec (.dec32 w) s = .next t ∧ t.status = some 0x11#8 ∧ t.rSign = some f.sign ∧ t.rExp = some (expPort f) ∧
      t.rMan = some (manPort f) ∧ t.rCls = some (classCode c) := by
  refine ⟨_, exec_eq _ s, ?_⟩
  rw [outcomeOf, writeOutcome_decodeOutcome, hf, hc]
  exact ⟨rfl, writeFields_rSign .., writeFields_rExp .., writeFields_rMan .., writeFields_rCls ..⟩

/-! ### Subnormal magnitudes and powers of two -/

/-- The largest subnormal magnitude is one unit in the last place below the smallest normal one (R82). -/
theorem largest_subnormal_formula (P : Precision) :
    ((2 ^ P.M - 1 : ℕ) : ℚ≥0) * (2 : ℚ≥0) ^ (1 - (P.bias : ℤ) - (P.M : ℤ)) =
      (2 : ℚ≥0) ^ (1 - (P.bias : ℤ)) - (2 : ℚ≥0) ^ (1 - (P.bias : ℤ) - (P.M : ℤ)) := by
  have hscale : (2 : ℚ≥0) ^ P.M * (2 : ℚ≥0) ^ (1 - (P.bias : ℤ) - (P.M : ℤ)) = 2 ^ (1 - (P.bias : ℤ)) := by
    rw [← zpow_natCast, ← zpow_add₀ two_ne_zero_nnrat, add_sub_cancel]
  rw [Nat.cast_tsub, Nat.cast_pow, Nat.cast_ofNat, Nat.cast_one, tsub_mul, one_mul, hscale]

/-- The smallest subnormal triple has the value of the last place (R82). -/
theorem encodeVal_smallest_subnormal (P : Precision) (s : SignBit) :
    encodeVal P ⟨s, 0, 1⟩ = .fin s ((2 : ℚ≥0) ^ (1 - (P.bias : ℤ) - (P.M : ℤ))) := by
  rw [encodeVal_subnormal, Nat.cast_one, one_mul]

theorem encodeVal_largest_subnormal (P : Precision) (s : SignBit) :
    encodeVal P ⟨s, 0, 2 ^ P.M - 1⟩ =
      .fin s ((2 : ℚ≥0) ^ (1 - (P.bias : ℤ)) - (2 : ℚ≥0) ^ (1 - (P.bias : ℤ) - (P.M : ℤ))) := by
  rw [encodeVal_subnormal, largest_subnormal_formula]

/-- A subnormal magnitude decodes to its own multiple of the last place (R83). -/
theorem decodeVal_subnormal_multiple (P : Precision) (s : SignBit) {m : Nat} (hm : m < 2 ^ P.M) :
    decodeVal P (.fin s ((m : ℚ≥0) * (2 : ℚ≥0) ^ (1 - (P.bias : ℤ) - (P.M : ℤ)))) = ⟨s, 0, m⟩ := by
  rw [decodeVal_subnormal s (subnormal_magnitude_lt P m hm),
    show (P.bias : ℤ) - 1 + P.M = -(1 - (P.bias : ℤ) - P.M) by ring, floor_window_exact]

/-- A power of two in the normal range decodes to its exponent and an empty mantissa (R62). -/
theorem decodeVal_two_zpow (P : Precision) (s : SignBit) {k : ℤ} (hlo : 1 - (P.bias : ℤ) ≤ k) (hhi : k ≤ P.bias) :
    decodeVal P (.fin s ((2 : ℚ≥0) ^ k)) = ⟨s, (k + (P.bias : ℤ)).toNat, 0⟩ := by
  have hwindow : (2 : ℚ≥0) ^ k * (2 : ℚ≥0) ^ ((P.M : ℤ) - k) = ((2 ^ P.M : ℕ) : ℚ≥0) := by
    rw [← zpow_add₀ two_ne_zero_nnrat, add_sub_cancel, zpow_natCast, Nat.cast_pow, Nat.cast_ofNat]
  rw [decodeVal_normal s le_rfl (zpow_lt_zpow_right₀ (by norm_num) (by omega)) hlo hhi, hwindow, Nat.floor_natCast,
    Nat.sub_self]

/-! ### Subnormal fields encoded -/

/-- The smallest binary32 subnormal is a normal binary64 magnitude, with exponent field 874 (R82). -/
theorem word64_two_zpow_neg_149 : word64 (.fin 0#1 ((2 : ℚ≥0) ^ (-149 : ℤ))) = 0x36A0000000000000#64 := by
  rw [word64, decodeVal_two_zpow .p64 0#1 (by decide) (by decide)]
  decide

/-- Settles O33: exponent 0 is one case of the encoder; the smallest and the largest triples are `m = 1` and
`m = 2^M - 1`. -/
theorem subnormalFieldsEncodeToScaledMantissa : Obligations.SubnormalFieldsEncodeToScaledMantissa := by
  refine ⟨fun P s m _ _ => encodeVal_subnormal P s m, fun s => ⟨?_, ?_, ?_, ?_⟩, fun s => ?_⟩
  · exact encodeVal_smallest_subnormal .p32 s
  · exact encodeVal_smallest_subnormal .p64 s
  · exact encodeVal_largest_subnormal .p32 s
  · exact encodeVal_largest_subnormal .p64 s
  · exact exec_enc32_of_fields (f := ⟨0#1, 0, 1⟩) (c := .subnormal) rfl rfl (encodeVal_smallest_subnormal .p32 0#1)
      word64_two_zpow_neg_149 rfl s

end Sys2Proof.Machine
end

section
/-! PROOFS. Signed zeros in both directions (R80, R81), infinities and NaNs encoded (R85, R87). -/

namespace Sys2Proof.Machine

open Sys2Proof

/-! ### Zeros -/

/-- Zero lies below the smallest normal magnitude and its window is empty (R81). -/
theorem decodeVal_zero (P : Precision) (s : SignBit) : decodeVal P (.fin s 0) = ⟨s, 0, 0⟩ := by
  have h := decodeVal_subnormal_multiple P s (m := 0) (Nat.two_pow_pos P.M)
  rwa [Nat.cast_zero, zero_mul] at h

/-- The value word of a zero is its sign and 63 zeros (R43). -/
theorem word64_zero (s : SignBit) : word64 (.fin s 0) = s ++ 0#63 := by
  rw [word64, decodeVal_zero]
  revert s
  decide

/-- On the fraction 0 the search for a leading bit runs to the boundary `-bias` and finds none (R68). -/
theorem searchLeading_zero (P : Precision) : searchLeading P.bias P.bias 0 (-1) = ⟨0, -(P.bias : ℤ), false⟩ := by
  have hbias : 2 ≤ P.bias := by cases P <;> decide
  have hspec := searchLeading_spec P.bias 0 le_rfl hbias P.bias 0 (Nat.zero_add _) (by omega) (by norm_num)
  norm_num at hspec
  exact hspec

/-- A buffer of M+1 bits whose first is 0, read from the fraction 0, has mantissa 0 (R69). -/
theorem windowMantissa_zero (P : Precision) : windowMantissa P (false :: fractionBits P.M 0) = 0 := by
  obtain ⟨hlen, hval⟩ := fractionBits_spec P.M 0 le_rfl one_pos
  rw [windowMantissa, List.take_of_length_le (by rw [List.length_cons, hlen]), List.drop_one, List.tail_cons, hval,
    zero_mul, Nat.floor_zero]

/-- The normalisation of zero: no integer bits, no leading bit, the boundary exponent (R66 to R70). -/
theorem normalise_zero (P : Precision) : normalise P 0 = .ok (0, 0) := by
  have hbits : integerBits 1 0 = [] := rfl
  have hbelow : ¬ (P.emax : ℤ) ≤ -1 + P.bias := by have := P.emax_eq; omega
  simp [normalise, hbits, hbelow, searchLeading_zero, windowMantissa_zero]

theorem decodeRef_zero (P : Precision) (s : SignBit) : decodeRef P (.fin s 0) = .ok ⟨s, 0, 0⟩ := by
  simp only [decodeRef, NNRat.cast_zero, normalise_zero]

/-- The word of the negative zero denotes it (R42). -/
theorem val64_negative_zero_word : val64 0x8000000000000000#64 = .fin 1#1 0 := encodeVal_zero .p64 1#1

/-- Settles O34: zero is `m = 0` of exponent 0 for the encoder, an empty window for the closed form, and the search's
boundary for the loops. -/
theorem signedZerosInBothDirections : Obligations.SignedZerosInBothDirections := by
  refine ⟨fun P s => ⟨encodeVal_zero P s, word64_zero s, decodeVal_zero P s, decodeRef_zero P s, rfl⟩, word64_zero 0#1,
    word64_zero 1#1, fun s => ?enc32, fun s => ?dec32⟩
  case enc32 =>
    exact exec_enc32_of_fields (f := ⟨1#1, 0, 0⟩) (c := .zero) rfl rfl (encodeVal_zero .p32 1#1) (word64_zero 1#1) rfl s
  case dec32 =>
    have hf : decodeVal .p32 (val64 0x8000000000000000#64) = ⟨1#1, 0, 0⟩ := by
      rw [val64_negative_zero_word, decodeVal_zero]
    obtain ⟨t, hexec, -, hports⟩ := exec_dec32_of_fields (c := .zero) hf rfl s
    exact ⟨t, hexec, hports⟩

/-! ### Infinities and NaNs -/

theorem classify_emax_zero (P : Precision) : classify P P.emax 0 = .infinity := by
  cases P <;> rfl

/-- Exponent EMAX with a non-zero mantissa is a NaN (R79). -/
theorem classify_emax_of_ne_zero (P : Precision) {m : Nat} (hm : m ≠ 0) : classify P P.emax m = .nan := by
  cases P <;> exact if_neg hm

/-- Settles O35: exponent EMAX is two cases of the encoder, and a value word of each is its sign with a fixed
fraction. -/
theorem infinityAndNanFieldsEncode : Obligations.InfinityAndNanFieldsEncode := by
  refine ⟨fun P s => ⟨encodeVal_infinity P s, classify_emax_zero P⟩,
    fun P s m hm _ => ⟨encodeVal_nan P s m hm, classify_emax_of_ne_zero P hm⟩, rfl, rfl, rfl, rfl, fun s => ?_,
    fun s => ?_⟩
  · exact exec_enc32_of_fields (f := ⟨1#1, 255, 0⟩) (c := .infinity) rfl rfl (encodeVal_infinity .p32 1#1) rfl rfl s
  · exact exec_enc32_of_fields (f := ⟨0#1, 255, 1⟩) (c := .nan) rfl rfl (encodeVal_nan .p32 0#1 1 one_ne_zero) rfl rfl s

end Sys2Proof.Machine
end

section
/-! PROOFS. Magnitudes below the smallest normal number decoded (R83). -/

namespace Sys2Proof.Machine

open Sys2Proof

/-- Exponent 0 is Zero or Subnormal, by the mantissa (R79). -/
theorem classify_zero_exponent (P : Precision) (m : Nat) :
    classify P 0 m = if m = 0 then .zero else .subnormal := rfl

theorem classify_zero_exponent_eq_zero_iff (P : Precision) (m : Nat) : classify P 0 m = .zero ↔ m = 0 := by
  rw [classify_zero_exponent]
  split <;> simp [*]

theorem classify_zero_exponent_eq_subnormal_iff (P : Precision) (m : Nat) : classify P 0 m = .subnormal ↔ m ≠ 0 := by
  rw [classify_zero_exponent]
  split <;> simp [*]

/-- The smallest normal magnitude is the first that is not subnormal (R83). -/
theorem decodeVal_smallest_normal (P : Precision) (s : SignBit) :
    decodeVal P (.fin s ((2 : ℚ≥0) ^ (1 - (P.bias : ℤ)))) = ⟨s, 1, 0⟩ := by
  rw [decodeVal_two_zpow P s le_rfl (by have := P.bias_pos; omega), sub_add_cancel]
  rfl

/-- One unit in the last place below it the mantissa is all ones (R83). -/
theorem decodeVal_largest_subnormal (P : Precision) (s : SignBit) :
    decodeVal P (.fin s ((2 : ℚ≥0) ^ (1 - (P.bias : ℤ)) - (2 : ℚ≥0) ^ (1 - (P.bias : ℤ) - (P.M : ℤ)))) =
      ⟨s, 0, 2 ^ P.M - 1⟩ := by
  rw [← largest_subnormal_formula, decodeVal_subnormal_multiple P s (Nat.sub_lt (Nat.two_pow_pos P.M) one_pos)]

theorem decodeVal_smallest_subnormal (P : Precision) (s : SignBit) :
    decodeVal P (.fin s ((2 : ℚ≥0) ^ (1 - (P.bias : ℤ) - (P.M : ℤ)))) = ⟨s, 0, 1⟩ := by
  have h := decodeVal_subnormal_multiple P s (m := 1) (by cases P <;> decide)
  rwa [Nat.cast_one, one_mul] at h

/-- The word of `2^-127`, the top binary32 subnormal bit (R83's example). -/
theorem decodeVal_top_subnormal_bit_word : decodeVal .p32 (val64 0x3800000000000000#64) = ⟨0#1, 0, 0x400000⟩ := by
  decide +kernel

/-- Settles O44: the closed form's last case, its two sides at the boundary, and the class by the mantissa. -/
theorem magnitudesBelowTheSmallestNormalDecodeToScaledFloor :
    Obligations.MagnitudesBelowTheSmallestNormalDecodeToScaledFloor := by
  refine ⟨fun P s q hq => ⟨_, decodeVal_subnormal s hq, rfl, classify_zero_exponent_eq_subnormal_iff P _,
      classify_zero_exponent_eq_zero_iff P _⟩, fun s q hq => decodeVal_subnormal (P := .p32) s hq,
    fun s q hq => decodeVal_subnormal (P := .p64) s hq,
    fun P s => ⟨decodeVal_smallest_normal P s, decodeVal_largest_subnormal P s⟩,
    fun s => ⟨decodeVal_smallest_subnormal .p32 s, encodeVal_smallest_subnormal .p32 s⟩, fun P => ?classes, ?packed,
    fun s => ?port⟩
  case classes => cases P <;> exact ⟨rfl, rfl⟩
  case packed => rw [decodeVal_top_subnormal_bit_word]; rfl
  case port =>
    obtain ⟨t, hexec, -, -, -, -, hcls⟩ :=
      exec_dec32_of_fields (c := .subnormal) decodeVal_top_subnormal_bit_word rfl s
    exact ⟨t, hexec, hcls⟩

end Sys2Proof.Machine
end

section
/-! PROOFS. Saturation to infinity, as an exact condition on the magnitude and on the value word (R89). -/

namespace Sys2Proof.Machine

open Sys2Proof

/-- A magnitude in the binade `k` reaches the powers of two up to `2^k` and no others. -/
theorem two_zpow_le_iff_of_binade {q : ℚ≥0} {k : ℤ} (hlo : (2 : ℚ≥0) ^ k ≤ q) (hhi : q < (2 : ℚ≥0) ^ (k + 1)) (j : ℤ) :
    (2 : ℚ≥0) ^ j ≤ q ↔ j ≤ k := by
  constructor
  · intro hj
    have := (zpow_lt_zpow_iff_right₀ one_lt_two).mp (hj.trans_lt hhi)
    omega
  · exact fun hj => (zpow_le_zpow_right₀ one_le_two hj).trans hlo

/-- Below the bound the exponent stays below EMAX (R62, R89). -/
theorem decodeVal_e_lt_emax {P : Precision} (s : SignBit) {q : ℚ≥0} (h : q < (2 : ℚ≥0) ^ ((P.bias : ℤ) + 1)) :
    (decodeVal P (.fin s q)).e < P.emax := by
  have hemax := P.emax_eq
  obtain hsat | hsub | ⟨k, hlo, hhi, hk, hk'⟩ := magnitude_cases P q
  · exact absurd h (not_lt.mpr hsat)
  · rw [decodeVal_subnormal s hsub]
    dsimp only
    omega
  · rw [decodeVal_normal s hk hk' hlo hhi]
    dsimp only
    omega

theorem decodeVal_eq_infinityFields_iff (P : Precision) (s : SignBit) (q : ℚ≥0) :
    decodeVal P (.fin s q) = infinityFields P s ↔ (2 : ℚ≥0) ^ ((P.bias : ℤ) + 1) ≤ q := by
  refine ⟨fun h => le_of_not_gt fun hlt => ?_, decodeVal_saturates s⟩
  have he := decodeVal_e_lt_emax s hlt
  rw [h] at he
  exact lt_irrefl _ he

/-- Fields below EMAX have a finite value, which reaches a power of two of the normal range exactly when their
exponent does (R51). -/
theorem encodeVal_finite_magnitude (P : Precision) (f : Fields) (hm : f.m < 2 ^ P.M) (he : f.e < P.emax) :
    ∃ q, encodeVal P f = .fin f.sign q ∧
      ∀ j : ℤ, 1 - (P.bias : ℤ) ≤ j → ((2 : ℚ≥0) ^ j ≤ q ↔ j + P.bias ≤ f.e) := by
  obtain ⟨s, e, m⟩ := f
  dsimp only at hm he
  obtain rfl | h0 := Nat.eq_zero_or_pos e
  · refine ⟨_, encodeVal_subnormal P s m, fun j hj => iff_of_false (not_le.mpr ?_) ?_⟩
    · exact (subnormal_magnitude_lt P m hm).trans_le (zpow_le_zpow_right₀ one_le_two hj)
    · dsimp only
      omega
  · obtain ⟨hlo, hhi⟩ := normal_magnitude_bounds P.M m ((e : ℤ) - P.bias) hm
    refine ⟨_, encodeVal_normal P s e m h0 he, fun j _ => ?_⟩
    rw [two_zpow_le_iff_of_binade hlo hhi, le_sub_iff_add_le]

/-- A word whose exponent field is not 2047 denotes a finite value, and its exponent field says which powers of two
that value reaches (R42). -/
theorem val64_finite_magnitude {w : ValueWord} (hw : wordExp w ≠ 2047) :
    ∃ q, val64 w = .fin (wordSign w) q ∧ ∀ j : ℤ, -1022 ≤ j → ((2 : ℚ≥0) ^ j ≤ q ↔ j + 1023 ≤ wordExp w) := by
  obtain ⟨he, hm⟩ := fieldsOfWord_inRange w
  exact encodeVal_finite_magnitude .p64 (fieldsOfWord w) hm (lt_of_le_of_ne he hw)

/-- At precision 32 a finite word saturates exactly from the exponent field 1151 (R89). -/
theorem decodeVal_p32_saturates_iff_wordExp {w : ValueWord} (hw : wordExp w ≠ 2047) :
    decodeVal .p32 (val64 w) = infinityFields .p32 (wordSign w) ↔ 1151 ≤ wordExp w := by
  obtain ⟨q, hq, hpow⟩ := val64_finite_magnitude hw
  have h128 := hpow (127 + 1) (by norm_num)
  rw [hq, decodeVal_eq_infinityFields_iff]
  refine h128.trans ?_
  omega

/-- At precision 64 no finite word saturates (R89). -/
theorem decodeVal_p64_e_ne_emax {w : ValueWord} (hw : wordExp w ≠ 2047) : (decodeVal .p64 (val64 w)).e ≠ 2047 := by
  obtain ⟨q, hq, hpow⟩ := val64_finite_magnitude hw
  have hexp : wordExp w ≤ 2047 := (fieldsOfWord_inRange w).1
  have hbound : ¬ (2 : ℚ≥0) ^ (1023 + 1 : ℤ) ≤ q := by
    rw [hpow _ (by norm_num)]
    omega
  rw [hq]
  exact (decodeVal_e_lt_emax (P := .p64) _ (not_le.mp hbound)).ne

/-- Settles O46: the bound is exact by the exponent below it, and a finite word's exponent field decides whether its
magnitude reaches the bound. -/
theorem saturationStartsExactlyAtTheBound : Obligations.SaturationStartsExactlyAtTheBound := by
  refine ⟨decodeVal_eq_infinityFields_iff, fun w hw => ⟨decodeVal_p32_saturates_iff_wordExp hw,
    decodeVal_p64_e_ne_emax hw⟩, classify_emax_zero, fun w s hw hsat => ?port, ?packed⟩
  case port =>
    have hf := (decodeVal_p32_saturates_iff_wordExp hw).2 hsat
    obtain ⟨t, hexec, hstatus, -, -, -, hcls⟩ := exec_dec32_of_fields hf (classify_emax_zero .p32) s
    exact ⟨t, hexec, hstatus, hcls⟩
  case packed =>
    have hexp : wordExp 0x47F0000000000000#64 = 1151 := by decide
    rw [(decodeVal_p32_saturates_iff_wordExp (by rw [hexp]; decide)).2 hexp.ge]
    decide

end Sys2Proof.Machine
end

section
/-! PROOFS. Decoding truncates to the largest representable magnitude that is not above (R91). -/

namespace Sys2Proof.Machine

open Sys2Proof

/-! ### Truncation at a weight -/

/-- `q` with every bit of weight below `2^u` dropped. -/
def truncateAt (u : ℤ) (q : ℚ≥0) : ℚ≥0 := ⌊q * (2 : ℚ≥0) ^ (-u)⌋₊ * (2 : ℚ≥0) ^ u

theorem truncateAt_le (u : ℤ) (q : ℚ≥0) : truncateAt u q ≤ q := floor_window_le q u

/-- A multiple of `2^u` that is at most `q` survives in the truncation of `q` at that weight. -/
theorem multiple_le_truncateAt {q : ℚ≥0} {u : ℤ} {n : ℕ} (h : n * (2 : ℚ≥0) ^ u ≤ q) :
    n * (2 : ℚ≥0) ^ u ≤ truncateAt u q :=
  mul_le_mul_of_nonneg_right (Nat.cast_le.mpr (le_floor_window q u n h)) zero_le

/-! ### The value of the decoded fields is a truncation -/

/-- Below the smallest normal number a decode keeps the multiples of the last place `2^(1-bias-M)`. -/
theorem encodeVal_decodeVal_subnormal {P : Precision} (s : SignBit) {q : ℚ≥0}
    (h : q < (2 : ℚ≥0) ^ (1 - (P.bias : ℤ))) :
    encodeVal P (decodeVal P (.fin s q)) = .fin s (truncateAt (1 - (P.bias : ℤ) - P.M) q) := by
  rw [decodeVal_subnormal s h, encodeVal_subnormal, truncateAt,
    show (P.bias : ℤ) - 1 + P.M = -(1 - (P.bias : ℤ) - P.M) by ring]

/-- In the binade `k` a decode keeps the multiples of the last place `2^(k-M)`. -/
theorem encodeVal_decodeVal_normal {P : Precision} (s : SignBit) {q : ℚ≥0} {k : ℤ} (hk : (2 : ℚ≥0) ^ k ≤ q)
    (hk' : q < (2 : ℚ≥0) ^ (k + 1)) (hlo : 1 - (P.bias : ℤ) ≤ k) (hhi : k ≤ P.bias) :
    encodeVal P (decodeVal P (.fin s q)) = .fin s (truncateAt (k - P.M) q) := by
  have hmin := (window_bounds P.M hk hk').1
  have hemax := P.emax_eq
  have hexp : (((k + P.bias).toNat : ℕ) : ℤ) - P.bias - P.M = k - P.M := by omega
  rw [decodeVal_normal s hk hk' hlo hhi, encodeVal_normal P s _ _ (by omega) (by omega), hexp,
    truncateAt, neg_sub, Nat.add_sub_cancel' hmin]

/-! ### Representable magnitudes as multiples of the last place -/

/-- R93's form of a normal magnitude as a multiple of the last place of its binade. -/
theorem binade_formula (M m : ℕ) (k : ℤ) :
    (2 : ℚ≥0) ^ k * (1 + (m : ℚ≥0) / (2 : ℚ≥0) ^ M) = ((2 ^ M + m : ℕ) : ℚ≥0) * (2 : ℚ≥0) ^ (k - (M : ℤ)) := by
  rw [zpow_sub₀ two_ne_zero_nnrat, zpow_natCast]
  push_cast
  field_simp

/-- The multiples of the last place below the smallest normal number are representable. -/
theorem representable_subnormal (P : Precision) {n : ℕ} (h : n < 2 ^ P.M) :
    Representable P (n * (2 : ℚ≥0) ^ (1 - (P.bias : ℤ) - (P.M : ℤ))) := by
  obtain rfl | h0 := Nat.eq_zero_or_pos n
  · exact .inl (by rw [Nat.cast_zero, zero_mul])
  · exact .inr (.inl ⟨n, h0, h, rfl⟩)

/-- The multiples of the last place in a binade of the normal range are representable. -/
theorem representable_normal {P : Precision} {n : ℕ} {k : ℤ} (hlo : 1 - (P.bias : ℤ) ≤ k) (hhi : k ≤ P.bias)
    (hmin : 2 ^ P.M ≤ n) (hmax : n < 2 ^ (P.M + 1)) : Representable P (n * (2 : ℚ≥0) ^ (k - (P.M : ℤ))) := by
  refine .inr (.inr ⟨k, n - 2 ^ P.M, hlo, hhi, by rw [pow_succ] at hmax; omega, ?_⟩)
  rw [binade_formula, Nat.add_sub_cancel' hmin]

/-- A representable magnitude below the smallest normal number is a multiple of the last place there. -/
theorem Representable.subnormal_multiple {P : Precision} {r : ℚ≥0} (hr : Representable P r)
    (h : r < (2 : ℚ≥0) ^ (1 - (P.bias : ℤ))) :
    ∃ n : ℕ, r = n * (2 : ℚ≥0) ^ (1 - (P.bias : ℤ) - (P.M : ℤ)) := by
  obtain rfl | ⟨m, -, -, rfl⟩ | ⟨k, m, hlo, -, hm, rfl⟩ := hr
  · exact ⟨0, by rw [Nat.cast_zero, zero_mul]⟩
  · exact ⟨m, rfl⟩
  · rw [binade_formula] at h
    have hk := (normal_magnitude_bounds P.M m k hm).1
    exact absurd h (not_lt.mpr ((zpow_le_zpow_right₀ one_le_two hlo).trans hk))

/-- A representable magnitude in a binade of the normal range is a multiple of the last place there. -/
theorem Representable.normal_multiple {P : Precision} {r : ℚ≥0} {k : ℤ} (hr : Representable P r)
    (hlo : 1 - (P.bias : ℤ) ≤ k) (hk : (2 : ℚ≥0) ^ k ≤ r) (hk' : r < (2 : ℚ≥0) ^ (k + 1)) :
    ∃ n : ℕ, r = n * (2 : ℚ≥0) ^ (k - (P.M : ℤ)) := by
  obtain rfl | ⟨m, -, hm, rfl⟩ | ⟨j, m, -, -, hm, rfl⟩ := hr
  · exact ⟨0, by rw [Nat.cast_zero, zero_mul]⟩
  · have hsub := (subnormal_magnitude_lt P m hm).trans_le (zpow_le_zpow_right₀ one_le_two hlo)
    exact absurd hk (not_le.mpr hsub)
  · rw [binade_formula] at hk hk' ⊢
    obtain ⟨hj, hj'⟩ := normal_magnitude_bounds P.M m j hm
    obtain rfl : j = k := (floorlog2_unique hj hj').symm.trans (floorlog2_unique hk hk')
    exact ⟨_, rfl⟩

/-! ### The truncation is the largest representable magnitude not above -/

/-- Below the smallest normal number every representable `r ≤ q` is a multiple of the one last place. -/
theorem representable_le_truncateAt_subnormal {P : Precision} {q r : ℚ≥0} (h : q < (2 : ℚ≥0) ^ (1 - (P.bias : ℤ)))
    (hr : Representable P r) (hrq : r ≤ q) : r ≤ truncateAt (1 - (P.bias : ℤ) - P.M) q := by
  obtain ⟨n, rfl⟩ := hr.subnormal_multiple (hrq.trans_lt h)
  exact multiple_le_truncateAt hrq

/-- In a binade of the normal range a representable `r ≤ q` either lies below the binade, as the truncation does not, or
is a multiple of the binade's last place. -/
theorem representable_le_truncateAt_normal {P : Precision} {q r : ℚ≥0} {k : ℤ} (hlo : 1 - (P.bias : ℤ) ≤ k)
    (hk : (2 : ℚ≥0) ^ k ≤ q) (hk' : q < (2 : ℚ≥0) ^ (k + 1)) (hr : Representable P r) (hrq : r ≤ q) :
    r ≤ truncateAt (k - P.M) q := by
  have hstart : (2 : ℚ≥0) ^ k = ((2 ^ P.M : ℕ) : ℚ≥0) * (2 : ℚ≥0) ^ (k - (P.M : ℤ)) := by
    simpa using binade_formula P.M 0 k
  obtain hbelow | habove := lt_or_ge r ((2 : ℚ≥0) ^ k)
  · refine hbelow.le.trans ?_
    rw [hstart] at hk ⊢
    exact multiple_le_truncateAt hk
  · obtain ⟨n, rfl⟩ := hr.normal_multiple hlo habove (hrq.trans_lt hk')
    exact multiple_le_truncateAt hrq

/-- Below the saturation bound the decoded value is the largest representable magnitude that is at most `q`. -/
theorem encodeVal_decodeVal_greatest_representable (P : Precision) (s : SignBit) {q : ℚ≥0}
    (h : q < (2 : ℚ≥0) ^ ((P.bias : ℤ) + 1)) :
    ∃ r : ℚ≥0, encodeVal P (decodeVal P (.fin s q)) = .fin s r ∧ Representable P r ∧ r ≤ q ∧
      ∀ r' : ℚ≥0, Representable P r' → r' ≤ q → r' ≤ r := by
  obtain hsat | hsub | ⟨k, hlo, hhi, hk, hk'⟩ := magnitude_cases P q
  · exact absurd h (not_lt.mpr hsat)
  · refine ⟨_, encodeVal_decodeVal_subnormal s hsub, representable_subnormal P ?_, truncateAt_le _ q,
      fun r' => representable_le_truncateAt_subnormal hsub⟩
    rw [show -(1 - (P.bias : ℤ) - P.M) = (P.bias : ℤ) - 1 + P.M by ring]
    exact subnormal_window P hsub
  · obtain ⟨hmin, hmax⟩ := window_bounds P.M hk hk'
    rw [← neg_sub k] at hmin hmax
    exact ⟨_, encodeVal_decodeVal_normal s hk hk' hlo hhi, representable_normal hlo hhi hmin hmax, truncateAt_le _ q,
      fun r' => representable_le_truncateAt_normal hlo hk hk'⟩

/-! ### The examples of R91 -/

/-- The integer bit below binary32's last place in the binade of `2^24` is dropped. -/
theorem decodeVal_p32_two_pow_24_add_one (s : SignBit) :
    decodeVal .p32 (.fin s (2 ^ 24 + 1)) = decodeVal .p32 (.fin s (2 ^ 24)) := by
  have hwindow : ⌊(2 ^ 24 + 1 : ℚ≥0) * (2 : ℚ≥0) ^ ((23 : ℤ) - 24)⌋₊ = 2 ^ 23 := by
    rw [show (2 ^ 24 + 1 : ℚ≥0) * (2 : ℚ≥0) ^ ((23 : ℤ) - 24) = ((2 ^ 24 + 1 : ℕ) : ℚ≥0) / (2 : ℕ) by norm_num,
      Nat.floor_div_eq_div]
    norm_num
  have hpow : decodeVal .p32 (.fin s (2 ^ 24)) = ⟨s, 151, 0⟩ :=
    decodeVal_two_zpow .p32 s (k := 24) (by decide) (by decide)
  rw [hpow, decodeVal_normal (P := .p32) s (k := 24) (by norm_num) (by norm_num) (by decide) (by decide),
    Precision.M_p32, Nat.cast_ofNat, hwindow]
  rfl

/-- The word of 3.14 (R91's example). -/
theorem decodeVal_p32_word_of_3_14 : decodeVal .p32 (val64 0x40091EB851EB851F#64) = ⟨0#1, 128, 0x48F5C2⟩ := by
  decide +kernel

/-- Settles O48: the decoded value is the magnitude truncated at the last place of its binade, and every representable
magnitude that is not above lies below the binade or is a multiple of that last place. -/
theorem decodeTruncatesToTheLargestRepresentableBelow : Obligations.DecodeTruncatesToTheLargestRepresentableBelow := by
  refine ⟨fun P s q => encodeVal_decodeVal_greatest_representable P s, decodeVal_p32_two_pow_24_add_one, ?_⟩
  rw [decodeVal_p32_word_of_3_14]
  rfl

end Sys2Proof.Machine
end

section
/-! PROOFS. `InvalidInput` is ENC32's answer to a padding bit and the block's only error (R100), and the state it leaves
(R103). -/

namespace Sys2Proof.Machine

open Sys2Proof

/-! ### Which commands end with `InvalidInput` -/

/-- The padding check decides whether an encode ends with `InvalidInput` (R55, R104). -/
theorem encodeOutcome_eq_invalidInput_iff {P : Precision} {sg : SignBit} {e : ExpPort} {m : ManPort} :
    encodeOutcome P sg e m = .error .invalidInput ↔ paddingSet P e m = true := by
  cases h : paddingSet P e m with
  | false => simp [encodeOutcome, h]
  | true => simp [encodeOutcome, h]

/-- `InvalidInput` is the outcome of an ENC32 with a padding bit set and of no other command: a decode ends with fields,
and ENC64 has no padding (R100). -/
theorem outcomeOf_eq_invalidInput_iff (i : Instr) :
    outcomeOf i = .error .invalidInput ↔
      ∃ sg e m, i = .enc32 sg e m ∧ (e.extractLsb' 8 3 ≠ 0#3 ∨ m.extractLsb' 23 29 ≠ 0#29) := by
  cases i with
  | dec32 v => simp [outcomeOf, decodeOutcome]
  | dec64 v => simp [outcomeOf, decodeOutcome]
  | enc32 sg e m =>
    rw [outcomeOf, encodeOutcome_eq_invalidInput_iff, paddingSet_p32_eq_true_iff]
    simp
  | enc64 sg e m =>
    rw [outcomeOf, encodeOutcome_eq_invalidInput_iff]
    simp [paddingSet]

/-! ### The error bit and the error code a command leaves -/

/-- Every outcome but `InternalNegative`, which no command has, leaves `err = 1` and `code = 1` when it is
`InvalidInput`, and `err = 0` and `code = 0` when it is a result (R15, R103). -/
theorem writeOutcome_err_code {r : CmdOutcome} (hr : r ≠ .error .internalNegative) (s : State) :
    ∃ w, (writeOutcome r s).status = some w ∧ (statusErr w = 1#1 ↔ r = .error .invalidInput) ∧
      (statusErr w = 1#1 → statusCode w = 1#2) ∧ (statusErr w = 0#1 → statusCode w = 0#2) := by
  cases r with
  | fields P f c => exact ⟨_, rfl, by simp⟩
  | value P v c => exact ⟨_, rfl, by simp⟩
  | error x =>
    cases x with
    | invalidInput => exact ⟨_, rfl, by simp [errorCode]⟩
    | internalNegative => exact absurd rfl hr

/-- A command leaves `err = 1` exactly when its outcome is `InvalidInput`. -/
theorem statusErr_eq_one_iff_outcomeOf {i : Instr} {s : State} {w : BitVec 8}
    (h : (writeOutcome (outcomeOf i) s).status = some w) :
    statusErr w = 1#1 ↔ outcomeOf i = .error .invalidInput := by
  obtain ⟨w', hw', herr, -, -⟩ := writeOutcome_err_code (outcomeOf_ne_internalNegative i) s
  obtain rfl : w' = w := Option.some_inj.1 (hw'.symm.trans h)
  exact herr

/-- Settles O21: `err` and `code` say whether the outcome is `InvalidInput`, which only an ENC32 with padding has; two
errors are one outcome, and what that leaves does not depend on the state before. -/
theorem onlyEnc32WithPaddingRaisesAnError : Obligations.OnlyEnc32WithPaddingRaisesAnError := by
  refine ⟨fun i s t ht => ?_, fun i j s s' t t' w w' ht ht' hw hw' herr herr' => ?_⟩
  · rw [exec_eq, Host.Outcome.next.injEq] at ht
    subst ht
    rw [← outcomeOf_eq_invalidInput_iff]
    exact writeOutcome_err_code (outcomeOf_ne_internalNegative i) s
  · rw [exec_eq, Host.Outcome.next.injEq] at ht ht'
    subst ht ht'
    rw [(statusErr_eq_one_iff_outcomeOf hw).1 herr, (statusErr_eq_one_iff_outcomeOf hw').1 herr']
    exact writeOutcome_sameRegisters _ s s'

/-- Settles O20: it is the padding case of the whole next state of ENC32. -/
theorem invalidInputLeavesErrorStatusAndNoResult : Obligations.InvalidInputLeavesErrorStatusAndNoResult := by
  intro sg e m s hpad
  obtain ⟨-, hraise, -⟩ := encodeCommandsWriteTheValueOfTheFields sg e m s
  exact hraise hpad

end Sys2Proof.Machine
end

section
/-! PROOFS. Reset is the only way back to `done = 0` (R113), it has priority over every other input, and one edge of it
is enough (R114). -/

namespace Sys2Proof.Machine

open Sys2Proof

/-! ### Reset is the only way back to `done = 0` -/

/-- Only an edge with `rst = 1` asks for a reset (R27, R113). -/
theorem rst_of_decodeEdge_eq_reset {p : PortInputs} (h : decodeEdge p = .reset) : p.rst = true := by
  by_contra hr
  rw [Bool.not_eq_true] at hr
  cases hs : p.start with
  | false => rw [decodeEdge_idle hr hs] at h; cases h
  | true => rw [decodeEdge_command hr hs] at h; cases h

/-- Every outcome, an error too, leaves `done = 1` (R15, R103). -/
theorem writeOutcome_statusDone {r : CmdOutcome} {s : State} {w : BitVec 8} (h : (writeOutcome r s).status = some w) :
    statusDone w = 1#1 := by
  cases r with
  | fields P f c => cases h; exact statusDone_statusWord ..
  | value P v c => cases h; exact statusDone_statusWord ..
  | error x => cases h; exact statusDone_statusWord ..

/-- A step from `done = 1` keeps it or takes a reset edge: without an edge and at an idle edge `STATUS` stands, and a
command leaves `done = 1`. -/
theorem step_statusDone_or_reset {s t : State} {w w' : BitVec 8} (h : step s = .next t) (hw : s.status = some w)
    (hd : statusDone w = 1#1) (hw' : t.status = some w') :
    statusDone w' = 1#1 ∨ ∃ p rest, s.edges = p :: rest ∧ p.rst = true := by
  have hkept (hst : t.status = s.status) : statusDone w' = 1#1 := by
    obtain rfl : w = w' := Option.some_inj.1 (hw.symm.trans (hst.symm.trans hw'))
    exact hd
  obtain ⟨-, rfl⟩ | ⟨p, rest, hedge, ⟨hreset, -⟩ | ⟨-, rfl⟩ | ⟨i, -, rfl⟩⟩ := step_cases h
  · exact .inl (hkept rfl)
  · exact .inr ⟨p, rest, hedge, rst_of_decodeEdge_eq_reset hreset⟩
  · exact .inl (hkept rfl)
  · exact .inl (writeOutcome_statusDone hw')

/-- Settles O5: a reset edge leaves the reset state, and a step from `done = 1` keeps it or takes a reset edge. -/
theorem resetEdgeIsTheOnlyWayBackToDoneZero : Obligations.ResetEdgeIsTheOnlyWayBackToDoneZero := by
  refine ⟨fun s p rest hedge hr => ⟨step_reset hedge hr, ?_⟩, fun s t w w' hstep hw hd hw' hd' => ?_⟩
  · exact lastOutcome_eq_none_of_done_zero reset_status (statusDone_statusWord ..)
  · refine (step_statusDone_or_reset hstep hw hd hw').resolve_left ?_
    rw [hd']
    decide

/-! ### Reset has priority, and one edge of it is enough -/

/-- Settles O6: the state after a reset edge depends neither on the edge's other inputs nor on the state before, and
what a command leaves in the registers does not depend on the state before it. -/
theorem resetHasPriorityAndOneEdgeIsEnough : Obligations.ResetHasPriorityAndOneEdgeIsEnough := by
  refine ⟨fun s p q rest hp hq => ?priority, fun p rest hp => step_reset rfl hp,
    fun s p q rest hedge hp hq hs => ?nextCommand, fun i s => outcomeIsIndependentOfTheState i s State.reset⟩
  case priority => rw [step_reset rfl hp, step_reset rfl hq]
  case nextCommand => exact ⟨_, step_reset hedge hp, step_command rfl hq hs⟩

end Sys2Proof.Machine
end

section
/-! PROOFS. The invariant of `STATUS` and the result registers (R17): it holds at reset and before it, the states that
meet it are the states a reset or a command leaves, and every step keeps it. -/

namespace Sys2Proof.Machine

open Sys2Proof

/-! ### Outcomes a command can have -/

/-- What every outcome of a command satisfies: fields are in range with their own class (R49, R98), and the one error is
`InvalidInput` (R100). -/
def OutcomeLegal : CmdOutcome → Prop
  | .fields P f c => f.InRange P ∧ c = classify P f.e f.m
  | .value _ _ _ => True
  | .error x => x = .invalidInput

theorem decodeOutcome_legal (P : Precision) (v : ValueWord) : OutcomeLegal (decodeOutcome P v) :=
  ⟨decodeVal_inRange P (val64 v), rfl⟩

theorem encodeOutcome_legal (P : Precision) (sg : SignBit) (e : ExpPort) (m : ManPort) :
    OutcomeLegal (encodeOutcome P sg e m) := by
  unfold encodeOutcome
  split
  · exact rfl
  · exact trivial

theorem outcomeOf_legal (i : Instr) : OutcomeLegal (outcomeOf i) := by
  cases i with
  | dec32 v => exact decodeOutcome_legal .p32 v
  | dec64 v => exact decodeOutcome_legal .p64 v
  | enc32 sg e m => exact encodeOutcome_legal .p32 sg e m
  | enc64 sg e m => exact encodeOutcome_legal .p64 sg e m

/-! ### Legal status words -/

@[simp] theorem statusPrecision_statusWord (d e : BitVec 1) (c k : BitVec 2) (P : Precision) :
    statusPrecision (statusWord d e c k (precisionBit P)) = P := by
  cases P <;> simp [statusPrecision, precisionBit]

theorem statusLegal_reset : StatusLegal 0x00#8 := by
  unfold StatusLegal
  decide

theorem statusLegal_invalidInput : StatusLegal (statusWord 1#1 1#1 (errorCode .invalidInput) 0#2 0#1) := by
  simp [StatusLegal, errorCode]

theorem statusLegal_result {k : BitVec 2} (hk : k = 1#2 ∨ k = 2#2) (p : BitVec 1) :
    StatusLegal (statusWord 1#1 0#1 0#2 k p) := by
  obtain rfl | rfl := hk <;> simp [StatusLegal]

/-- The legal status words: after reset, after the error, after a decode, after an encode (R17). -/
theorem statusLegal_cases {w : BitVec 8} (h : StatusLegal w) :
    w = 0x00#8 ∨ w = statusWord 1#1 1#1 (errorCode .invalidInput) 0#2 0#1 ∨
    w = statusWord 1#1 0#1 0#2 1#2 (precisionBit (statusPrecision w)) ∨
    w = statusWord 1#1 0#1 0#2 2#2 (precisionBit (statusPrecision w)) := by
  unfold StatusLegal at h
  revert w
  decide

/-! ### The ports of fields in range -/

/-- In-range fields set no padding bit and are read back from their ports (R40, R49). -/
theorem ports_of_fields {P : Precision} {f : Fields} (h : f.InRange P) :
    paddingSet P (expPort f) (manPort f) = false ∧ fieldsOfPorts P f.sign (expPort f) (manPort f) = f ∧
      (expPort f).toNat = f.e ∧ (manPort f).toNat = f.m := by
  cases P with
  | p32 =>
    obtain ⟨hpad, hports, he, hm, -, -⟩ := ports_of_fields_p32 f h
    exact ⟨hpad, hports, he, hm⟩
  | p64 => exact ports_of_fields_p64 f h

@[simp] theorem expPort_toNat (s : SignBit) (e : ExpPort) (m : Nat) : expPort ⟨s, e.toNat, m⟩ = e := by
  simp [expPort]

@[simp] theorem manPort_toNat (s : SignBit) (e : Nat) (m : ManPort) : manPort ⟨s, e, m.toNat⟩ = m := by
  simp [manPort]

/-- Ports without a padding bit set read as fields in range (R39, R40). -/
theorem inRange_of_paddingSet_eq_false {P : Precision} {e : ExpPort} {m : ManPort} (h : paddingSet P e m = false)
    (sg : SignBit) : Fields.InRange P ⟨sg, e.toNat, m.toNat⟩ := by
  cases P with
  | p32 =>
    obtain ⟨he, hm⟩ := (paddingSet_p32_eq_false_iff e m).1 h
    have he' := congrArg BitVec.toNat he
    have hm' := congrArg BitVec.toNat hm
    simp only [BitVec.extractLsb'_toNat, Nat.shiftRight_eq_div_pow, BitVec.toNat_ofNat] at he' hm'
    constructor <;> simp only [Precision.emax_p32, Precision.M_p32] <;> omega
  | p64 =>
    constructor <;> simp only [Precision.emax_p64, Precision.M_p64] <;> omega

/-! ### The states that meet the invariant -/

/-- The invariant does not speak of the coming edges. -/
theorem inv_edges {s : State} (l : List PortInputs) : Inv { s with edges := l } ↔ Inv s := Iff.rfl

theorem inv_resetRegisters (s : State) : Inv (resetRegisters s) :=
  ⟨statusLegal_reset, fun _ => noResult_reset, fun h => absurd h (by decide), fun h => absurd h (by decide)⟩

/-- A legal outcome leaves a state that meets the invariant. -/
theorem inv_writeOutcome {r : CmdOutcome} (h : OutcomeLegal r) (s : State) : Inv (writeOutcome r s) := by
  cases r with
  | fields P f c =>
    obtain ⟨hf, rfl⟩ := h
    obtain ⟨hpad, -, he, hm⟩ := ports_of_fields hf
    refine ⟨statusLegal_result (.inl rfl) _, fun h0 => ?_, fun _ => ?_, fun h2 => ?_⟩
    · simp at h0
    · rw [statusPrecision_statusWord]
      exact ⟨_, _, _, rfl, rfl, rfl, rfl, hpad, by rw [he, hm]; rfl⟩
    · simp at h2
  | value P w c =>
    refine ⟨statusLegal_result (.inr rfl) _, fun h0 => ?_, fun h1 => ?_, fun _ => ⟨w, c, rfl, rfl, rfl, rfl, rfl⟩⟩
    · simp at h0
    · simp at h1
  | error x =>
    obtain rfl : x = .invalidInput := h
    refine ⟨statusLegal_invalidInput, fun _ => ⟨rfl, rfl, rfl, rfl, rfl⟩, fun h1 => ?_, fun h2 => ?_⟩
    · simp at h1
    · simp at h2

/-- A state with a status that meets the invariant is the state a reset leaves, or the state a legal outcome leaves. -/
theorem inv_cases {s : State} {w : BitVec 8} (h : Inv s) (hw : s.status = some w) :
    resetRegisters s = s ∨ ∃ r, OutcomeLegal r ∧ writeOutcome r s = s := by
  obtain ⟨status, rSign, rExp, rMan, rVal, rCls, edges⟩ := s
  obtain rfl : status = some w := hw
  obtain ⟨hlegal, hnone, hfields, hvalue⟩ := h
  obtain hst | hst | hst | hst := statusLegal_cases hlegal
  · obtain ⟨rfl, rfl, rfl, rfl, rfl⟩ := hnone (by rw [hst]; rfl)
    subst hst
    exact .inl rfl
  · obtain ⟨rfl, rfl, rfl, rfl, rfl⟩ := hnone (by rw [hst]; rfl)
    subst hst
    exact .inr ⟨.error .invalidInput, rfl, rfl⟩
  · obtain ⟨b, e, m, rfl, rfl, rfl, rfl, hpad, rfl⟩ := hfields (by rw [hst, statusKind_statusWord])
    refine .inr ⟨.fields (statusPrecision w) ⟨b, e.toNat, m.toNat⟩ _,
      ⟨inRange_of_paddingSet_eq_false hpad b, rfl⟩, ?_⟩
    simp [writeFields, ← hst]
  · obtain ⟨v, c, rfl, rfl, rfl, rfl, rfl⟩ := hvalue (by rw [hst, statusKind_statusWord])
    exact .inr ⟨.value (statusPrecision w) v c, trivial, by simp [writeValue, ← hst]⟩

/-- Settles O12: the reset state has a legal status of kind 0, and before the first reset there is no status. -/
theorem resetAndPowerOnMeetTheInvariant : Obligations.ResetAndPowerOnMeetTheInvariant :=
  ⟨inv_resetRegisters State.reset, rfl, rfl, rfl, rfl, rfl⟩

/-- Settles O13: a step leaves the registers as they were, resets them, or writes the outcome of a command, which is
legal. -/
theorem everyStepKeepsTheInvariant : Obligations.EveryStepKeepsTheInvariant := by
  intro s t hinv hstep
  obtain ⟨-, rfl⟩ | ⟨p, rest, -, ⟨-, rfl⟩ | ⟨-, rfl⟩ | ⟨i, -, rfl⟩⟩ := step_cases hstep
  · exact hinv
  · exact inv_resetRegisters _
  · exact (inv_edges rest).2 hinv
  · exact inv_writeOutcome (outcomeOf_legal i) _

end Sys2Proof.Machine
end

section
/-! PROOFS. The last outcome read off the registers (R23), and the runs that refine the machine it makes (R124). -/

namespace Sys2Proof.Machine

open Sys2Proof

/-! ### The last outcome -/

theorem lastOutcome_edges (s : State) (l : List PortInputs) : lastOutcome { s with edges := l } = lastOutcome s := rfl

theorem lastOutcome_resetRegisters (s : State) : lastOutcome (resetRegisters s) = none :=
  lastOutcome_eq_none_of_done_zero (resetRegisters_status s) (by decide)

/-- A legal outcome is read back from the registers it was written to (R15, R23). -/
theorem lastOutcome_writeOutcome {r : CmdOutcome} (h : OutcomeLegal r) (s : State) :
    lastOutcome (writeOutcome r s) = some r := by
  cases r with
  | fields P f c =>
    obtain ⟨-, -, he, hm⟩ := ports_of_fields h.1
    simp [lastOutcome, he, hm]
  | value P w c => simp [lastOutcome]
  | error x =>
    obtain rfl : x = .invalidInput := h
    simp [lastOutcome]

/-- Settles O14: the state is what a reset or a legal outcome leaves, and the last outcome says which. -/
theorem registersAreFunctionsOfTheLastOutcome : Obligations.RegistersAreFunctionsOfTheLastOutcome := by
  intro s w hinv hw
  obtain hs | ⟨r, hr, hs⟩ := inv_cases hinv hw
  · have hlast : lastOutcome s = none := hs ▸ lastOutcome_resetRegisters s
    rw [hlast]
    exact hs
  · have hlast : lastOutcome s = some r := hs ▸ lastOutcome_writeOutcome hr s
    rw [hlast]
    exact hs

/-! ### Steps and runs -/

/-- A step answers a next state from every state (R109). -/
theorem step_total (s : State) : ∃ t, step s = .next t := by
  cases hs : s.edges with
  | nil => exact ⟨s, step_nil hs⟩
  | cons p rest =>
    rw [step_cons hs]
    cases decodeEdge p <;> exact ⟨_, rfl⟩

/-- A step takes one edge, or none when none is coming. -/
theorem step_edges {s t : State} (h : step s = .next t) : t.edges = s.edges.drop 1 := by
  obtain ⟨hnil, rfl⟩ | ⟨p, rest, hedge, ⟨-, rfl⟩ | ⟨-, rfl⟩ | ⟨i, -, rfl⟩⟩ := step_cases h
  · rw [hnil, List.drop_nil]
  · rw [hedge, resetRegisters_edges, List.drop_one, List.tail_cons]
  · rw [hedge, List.drop_one, List.tail_cons]
  · rw [hedge, writeOutcome_edges, List.drop_one, List.tail_cons]

/-- A step's last outcome is R23's step of the last outcome before it. -/
theorem lastOutcome_step {s t : State} {p : PortInputs} {rest : List PortInputs} (hedge : s.edges = p :: rest)
    (h : step s = .next t) : lastOutcome t = lastStep (lastOutcome s) p := by
  rw [step_cons hedge] at h
  unfold lastStep
  cases hd : decodeEdge p with
  | reset =>
    rw [hd, Host.Outcome.next.injEq] at h
    rw [← h, lastOutcome_resetRegisters]
  | idle =>
    rw [hd, Host.Outcome.next.injEq] at h
    rw [← h, lastOutcome_edges]
  | command i =>
    rw [hd, Host.Outcome.next.injEq] at h
    rw [← h, lastOutcome_writeOutcome (outcomeOf_legal i)]

/-- Settles O15: the step is total, keeps the invariant, and its last outcome is R23's. -/
theorem stepRefinesTheLastOutcomeMachine : Obligations.StepRefinesTheLastOutcomeMachine := by
  intro s p rest hinv hedge
  obtain ⟨t, hstep⟩ := step_total s
  exact ⟨t, hstep, everyStepKeepsTheInvariant s t hinv hstep, lastOutcome_step hedge hstep⟩

theorem runEdges_nil (s : State) : runEdges s [] = .next { s with edges := [] } := rfl

/-- One step at the head of a run of a machine behind the host's interface. -/
theorem core_run_succ (M : Host.Core) {s t : M.State} (h : M.step s = .next t) (k : Nat) :
    M.run (k + 1) s = M.run k t := by
  rw [Host.Core.run, h]

/-- A run takes its first edge and goes on from the state that leaves. -/
theorem runEdges_cons {s t : State} {p : PortInputs} {l : List PortInputs}
    (h : step { s with edges := p :: l } = .next t) : runEdges s (p :: l) = runEdges t l := by
  have hedges : t.edges = l := step_edges h
  have ht : { t with edges := l } = t := by rw [← hedges]
  have hrun : runEdges s (p :: l) = Host.Core.run Sys2Proof.core l.length t :=
    core_run_succ Sys2Proof.core (s := { s with edges := p :: l }) (t := t) h l.length
  rw [hrun, runEdges, ht]

/-- A run from a state that meets the invariant ends in one, with R23's step folded over its edges. -/
theorem runEdges_refines_lastStep (l : List PortInputs) : ∀ s : State, Inv s →
    ∃ t, runEdges s l = .next t ∧ Inv t ∧ t.edges = [] ∧ lastOutcome t = l.foldl lastStep (lastOutcome s) := by
  induction l with
  | nil => exact fun s hinv => ⟨_, runEdges_nil s, (inv_edges []).2 hinv, rfl, lastOutcome_edges s []⟩
  | cons p l ih =>
    intro s hinv
    obtain ⟨t, hstep, ht, hlast⟩ :=
      stepRefinesTheLastOutcomeMachine { s with edges := p :: l } p l ((inv_edges _).2 hinv) rfl
    rw [runEdges_cons hstep, List.foldl_cons, ← lastOutcome_edges s (p :: l), ← hlast]
    exact ih t ht

/-- Settles O16: it is the run from reset, where there is no last outcome. -/
theorem runRefinesTheLastOutcomeMachine : Obligations.RunRefinesTheLastOutcomeMachine :=
  fun l => runEdges_refines_lastStep l State.reset (inv_resetRegisters State.reset)

/-- Settles O11: by induction on the edges before the last; at the last the command writes its own outcome. -/
theorem lastCommandDecidesTheRegisters : Obligations.LastCommandDecidesTheRegisters := by
  intro s l p hr hs
  induction l generalizing s with
  | nil =>
    have hstep : step { s with edges := [p] } =
        .next (writeOutcome (outcomeOf (decodeCommand p)) { s with edges := [] }) := by
      rw [step_command rfl hr hs, exec_eq]
    rw [List.nil_append, runEdges_cons hstep, runEdges_nil]
    exact ⟨_, _, rfl, exec_eq _ _, writeOutcome_sameRegisters _ { s with edges := [] } State.reset, rfl⟩
  | cons q l ih =>
    obtain ⟨t, hstep⟩ := step_total { s with edges := q :: (l ++ [p]) }
    rw [List.cons_append, runEdges_cons hstep]
    exact ih t

/-- Settles O10: a command writes its outcome and no edge; a step takes the first of them. -/
theorem commandsChangeRegistersOnlyAndAStepTakesOneEdge :
    Obligations.CommandsChangeRegistersOnlyAndAStepTakesOneEdge := by
  refine ⟨fun i s t h => ?_, fun s t => step_edges, fun s => step_nil⟩
  rw [exec_eq, Host.Outcome.next.injEq] at h
  rw [← h, writeOutcome_edges]

/-- An encode ends with a value or with `InvalidInput` (R55). -/
theorem encodeOutcome_cases (P : Precision) (sg : SignBit) (e : ExpPort) (m : ManPort) :
    (∃ w c, encodeOutcome P sg e m = .value P w c) ∨ encodeOutcome P sg e m = .error .invalidInput := by
  unfold encodeOutcome
  split
  · exact .inr rfl
  · exact .inl ⟨_, _, rfl⟩

/-- The last outcome after a command is the command's own. -/
theorem exec_lastOutcome (i : Instr) (s : State) :
    ∃ t, exec i s = .next t ∧ lastOutcome t = some (outcomeOf i) :=
  ⟨_, exec_eq i s, lastOutcome_writeOutcome (outcomeOf_legal i) s⟩

/-- Settles O7: a step is total, and the last outcome after a command is one of those its family has. -/
theorem everyStepHasANextStateAndCommandsEndOnlyAsListed :
    Obligations.EveryStepHasANextStateAndCommandsEndOnlyAsListed := by
  refine ⟨step_total, fun v s => ?_, fun v s => ?_, fun sg e m s => ?_, fun sg e m s => ?_⟩
  · obtain ⟨t, hexec, hlast⟩ := exec_lastOutcome (.dec32 v) s
    exact ⟨t, _, _, hexec, hlast⟩
  · obtain ⟨t, hexec, hlast⟩ := exec_lastOutcome (.dec64 v) s
    exact ⟨t, _, _, hexec, hlast⟩
  · obtain ⟨t, hexec, hlast⟩ := exec_lastOutcome (.enc32 sg e m) s
    refine ⟨t, hexec, ?_⟩
    rw [hlast, outcomeOf]
    obtain ⟨w, c, h⟩ | h := encodeOutcome_cases .p32 sg e m
    · exact .inl ⟨w, c, congrArg some h⟩
    · exact .inr (congrArg some h)
  · obtain ⟨t, hexec, hlast⟩ := exec_lastOutcome (.enc64 sg e m) s
    exact ⟨t, _, _, hexec, hlast⟩

end Sys2Proof.Machine
end

section
/-! PROOFS. Decode undoes encode on every in-range triple that is no NaN (R94), so encode is injective there (R52), and
a second pass through both directions changes nothing (R94, R119). -/

namespace Sys2Proof.Machine

open Sys2Proof

/-! ### Decode after encode -/

/-- A normal magnitude decodes to its own exponent and mantissa (R62). -/
theorem decodeVal_normal_multiple (P : Precision) (s : SignBit) {e m : Nat} (h0 : 0 < e) (h1 : e < P.emax)
    (hm : m < 2 ^ P.M) :
    decodeVal P (.fin s (((2 ^ P.M + m : ℕ) : ℚ≥0) * (2 : ℚ≥0) ^ ((e : ℤ) - P.bias - P.M))) = ⟨s, e, m⟩ := by
  have hemax := P.emax_eq
  obtain ⟨hlo, hhi⟩ := normal_magnitude_bounds P.M m ((e : ℤ) - P.bias) hm
  rw [decodeVal_normal s hlo hhi (by omega) (by omega), ← neg_sub ((e : ℤ) - P.bias), floor_window_exact,
    Nat.add_sub_cancel_left, sub_add_cancel, Int.toNat_natCast]

/-- Decode undoes encode on every in-range triple that is no NaN, by the class of the triple (R94). -/
theorem decodeVal_encodeVal {P : Precision} {f : Fields} (hf : f.InRange P) (hnan : ¬ NanFields P f) :
    decodeVal P (encodeVal P f) = f := by
  obtain ⟨s, e, m⟩ := f
  obtain ⟨he, hm⟩ := hf
  dsimp only at he hm
  obtain rfl | h0 := Nat.eq_zero_or_pos e
  · rw [encodeVal_subnormal, decodeVal_subnormal_multiple P s hm]
  obtain h1 | rfl := he.lt_or_eq
  · rw [encodeVal_normal P s e m h0 h1, decodeVal_normal_multiple P s h0 h1 hm]
  · obtain rfl : m = 0 := by_contra fun h => hnan ⟨rfl, h⟩
    rw [encodeVal_infinity]
    rfl

/-- The value of a NaN triple is the NaN of its sign (R87). -/
theorem encodeVal_of_nanFields {P : Precision} {f : Fields} (h : NanFields P f) : encodeVal P f = .nan f.sign := by
  obtain ⟨s, e, m⟩ := f
  obtain ⟨rfl, hm⟩ := h
  exact encodeVal_nan P s m hm

theorem nanFields_nanFields (P : Precision) (s : SignBit) : NanFields P (nanFields P s) := by
  have hm : 2 ^ P.M - 1 ≠ 0 := by cases P <;> decide
  exact ⟨rfl, hm⟩

/-- Only a NaN triple has the value NaN: decode would give back the all-ones one (R94). -/
theorem nanFields_of_encodeVal_eq_nan {P : Precision} {f : Fields} {s : SignBit} (hf : f.InRange P)
    (h : encodeVal P f = .nan s) : NanFields P f := by
  by_contra hnan
  have hdec := decodeVal_encodeVal hf hnan
  rw [h, decodeVal] at hdec
  exact hnan (hdec ▸ nanFields_nanFields P s)

/-- Settles O53: a triple that is no NaN comes back by its class, and every NaN goes through the one value of its
sign. -/
theorem fieldsSurviveEncodeThenDecode : Obligations.FieldsSurviveEncodeThenDecode := by
  refine fun P f hf => ⟨decodeVal_encodeVal hf, fun hnan => ?_⟩
  rw [encodeVal_of_nanFields hnan]
  rfl

/-- Settles O32: off the NaN triples decode is a left inverse of encode. -/
theorem encodeIsInjectiveOffNan : Obligations.EncodeIsInjectiveOffNan := by
  intro P f g hf hg hfn hgn heq
  rw [← decodeVal_encodeVal hf hfn, heq, decodeVal_encodeVal hg hgn]

/-! ### Convergence -/

theorem encodeVal_nanFields (P : Precision) (s : SignBit) : encodeVal P (nanFields P s) = .nan s :=
  encodeVal_of_nanFields (nanFields_nanFields P s)

/-- A finite value decodes to fields that are no NaN: they are saturated, or their exponent is below EMAX. -/
theorem decodeVal_fin_not_nanFields (P : Precision) (s : SignBit) (q : ℚ≥0) :
    ¬ NanFields P (decodeVal P (.fin s q)) := by
  rintro ⟨he, hm⟩
  obtain hsat | hlt := le_or_gt ((2 : ℚ≥0) ^ ((P.bias : ℤ) + 1)) q
  · rw [decodeVal_saturates s hsat] at hm
    exact hm rfl
  · exact (decodeVal_e_lt_emax s hlt).ne he

/-- What a decode gives survives encode then decode (R119). -/
theorem decodeVal_encodeVal_decodeVal (P : Precision) (v : Val) :
    decodeVal P (encodeVal P (decodeVal P v)) = decodeVal P v := by
  cases v with
  | nan s => rw [decodeVal, encodeVal_nanFields, decodeVal]
  | inf s => rw [decodeVal, infinityFields, encodeVal_infinity, decodeVal, infinityFields]
  | fin s q => exact decodeVal_encodeVal (decodeVal_fin_inRange P s q) (decodeVal_fin_not_nanFields P s q)

/-- What an encode gives survives decode then encode (R94). -/
theorem encodeVal_decodeVal_encodeVal {P : Precision} {f : Fields} (hf : f.InRange P) :
    encodeVal P (decodeVal P (encodeVal P f)) = encodeVal P f := by
  by_cases hnan : NanFields P f
  · rw [encodeVal_of_nanFields hnan, decodeVal, encodeVal_nanFields]
  · rw [decodeVal_encodeVal hf hnan]

/-- Settles O56: off the NaNs decode undoes encode, and a NaN keeps its sign alone from the first pass on. -/
theorem onePassThroughBothDirectionsConverges : Obligations.OnePassThroughBothDirectionsConverges :=
  fun P => ⟨fun _ => encodeVal_decodeVal_encodeVal, decodeVal_encodeVal_decodeVal P⟩

end Sys2Proof.Machine
end

section
/-! PROOFS. Decode then encode is the identity exactly on the representable values (R93), and the magnitude it loses on
the others is less than one unit in the last place (R92). -/

namespace Sys2Proof.Machine

open Sys2Proof

/-- A representable magnitude lies below the saturation bound (R93). -/
theorem Representable.lt_bound {P : Precision} {q : ℚ≥0} (h : Representable P q) :
    q < (2 : ℚ≥0) ^ ((P.bias : ℤ) + 1) := by
  obtain rfl | ⟨m, -, hm, rfl⟩ | ⟨k, m, -, hk, hm, rfl⟩ := h
  · positivity
  · exact (subnormal_magnitude_lt P m hm).trans_le (zpow_le_zpow_right₀ one_le_two (by omega))
  · rw [binade_formula]
    exact (normal_magnitude_bounds P.M m k hm).2.trans_le (zpow_le_zpow_right₀ one_le_two (by omega))

/-- A finite value that comes back finite lies below the saturation bound. -/
theorem lt_bound_of_encodeVal_decodeVal_eq_fin {P : Precision} {s t : SignBit} {q r : ℚ≥0}
    (h : encodeVal P (decodeVal P (.fin s q)) = .fin t r) : q < (2 : ℚ≥0) ^ ((P.bias : ℤ) + 1) := by
  by_contra hsat
  rw [decodeVal_saturates s (not_lt.mp hsat), infinityFields, encodeVal_infinity] at h
  exact Val.noConfusion h

/-- A magnitude survives exactly when it is representable: it comes back as the largest representable one not above it
(R91, R93). -/
theorem encodeVal_decodeVal_eq_iff_representable (P : Precision) (s : SignBit) (q : ℚ≥0) :
    encodeVal P (decodeVal P (.fin s q)) = .fin s q ↔ Representable P q := by
  constructor
  · intro h
    obtain ⟨r, hr, hrep, -, -⟩ :=
      encodeVal_decodeVal_greatest_representable P s (lt_bound_of_encodeVal_decodeVal_eq_fin h)
    obtain ⟨-, rfl⟩ := Val.fin.inj (h.symm.trans hr)
    exact hrep
  · intro hrep
    obtain ⟨r, hr, -, hrq, hmax⟩ := encodeVal_decodeVal_greatest_representable P s hrep.lt_bound
    rw [hr, le_antisymm hrq (hmax q hrep le_rfl)]

/-- Settles O52: NaN and infinity keep their sign, and a magnitude comes back as the largest representable one not above
it. -/
theorem representableValuesSurviveDecodeThenEncode : Obligations.RepresentableValuesSurviveDecodeThenEncode :=
  fun P s => ⟨encodeVal_nanFields P s, encodeVal_infinity P s, encodeVal_decodeVal_eq_iff_representable P s⟩

/-- Settles O49: in a binade, and below the smallest normal number, what comes back is `q` truncated at the last place
there. -/
theorem truncationLosesLessThanOneUnitInTheLastPlace : Obligations.TruncationLosesLessThanOneUnitInTheLastPlace := by
  intro P s q r h
  refine ⟨?_, fun k hlo hhi hk hk' => ?_, fun hsub => ?_⟩
  · obtain ⟨r', hr', -, hle, -⟩ :=
      encodeVal_decodeVal_greatest_representable P s (lt_bound_of_encodeVal_decodeVal_eq_fin h)
    obtain ⟨-, rfl⟩ := Val.fin.inj (h.symm.trans hr')
    exact hle
  · obtain ⟨-, rfl⟩ := Val.fin.inj (h.symm.trans (encodeVal_decodeVal_normal s hk hk' hlo hhi))
    exact lt_floor_window_add q _
  · obtain ⟨-, rfl⟩ := Val.fin.inj (h.symm.trans (encodeVal_decodeVal_subnormal s hsub))
    exact lt_floor_window_add q _

end Sys2Proof.Machine
end

section
/-! PROOFS. Every value an encoder produces is denoted by the word written, and a finite value by one word only (R43,
R54). Binary32 fields are compared with the binary64 fields of the same value. -/

namespace Sys2Proof.Machine

open Sys2Proof

/-! ### Words and their fields -/

/-- The fields of a word put back give the word (R41). -/
theorem wordOfFields_fieldsOfWord (w : ValueWord) : wordOfFields (fieldsOfWord w) = w := by
  simp only [wordOfFields, fieldsOfWord, expPort_toNat, manPort_toNat]
  ext i hi
  simp only [BitVec.getElem_append, BitVec.getElem_extractLsb']
  split
  · rw [Nat.zero_add, BitVec.getLsbD_eq_getElem hi]
  · split
    · rw [BitVec.getLsbD_eq_getElem (by omega)]
      congr 1
      omega
    · rw [BitVec.getLsbD_eq_getElem (by omega)]
      congr 1
      omega

/-- The number of a word by its three fields (R45). -/
theorem packFields_fieldsOfWord (w : ValueWord) : packFields .p64 (fieldsOfWord w) = w.toNat := by
  simp only [packFields, fieldsOfWord, BitVec.extractLsb'_toNat, Nat.shiftRight_eq_div_pow, Precision.totalBits,
    Precision.E_p64, Precision.M_p64]
  omega

/-- Settles O38: the three fields partition the 64 bits. -/
theorem wordFieldsPackBackToTheWord : Obligations.WordFieldsPackBackToTheWord :=
  fun w => ⟨wordOfFields_fieldsOfWord w, packFields_fieldsOfWord w⟩

/-- Settles O37: the value of a word is the encoder's five-case function at its own fields. -/
theorem valueWordsDenoteBinary64Values : Obligations.ValueWordsDenoteBinary64Values := by
  intro w
  obtain ⟨he, hm⟩ := fieldsOfWord_inRange w
  obtain ⟨hzero, hsub, hinf, hnan, hnormal⟩ := encodeIsTheFiveCaseFunction .p64 (wordSign w) (wordExp w) _ he hm
  have hfrac : wordFrac w = 0#52 ↔ (wordFrac w).toNat = 0 := BitVec.toNat_inj.symm
  rw [val64, fieldsOfWord_eq, Ne, hfrac]
  exact ⟨hnan, hinf, hzero, hsub, fun h0 h1 => hnormal (Nat.pos_of_ne_zero h0) (lt_of_le_of_ne he h1)⟩

/-! ### The word of a binary64 triple -/

/-- The word written for a binary64 triple that is no NaN is the word of its fields (R58). -/
theorem word64_encodeVal_p64 {f : Fields} (hf : f.InRange .p64) (hnan : ¬ NanFields .p64 f) :
    word64 (encodeVal .p64 f) = wordOfFields f := by
  have hdec := decodeVal_encodeVal hf hnan
  cases hv : encodeVal .p64 f with
  | nan s => exact absurd (nanFields_of_encodeVal_eq_nan hf hv) hnan
  | inf s =>
    rw [hv, decodeVal] at hdec
    rw [← hdec]
    rfl
  | fin s q =>
    rw [hv] at hdec
    rw [word64, hdec]

/-- The word written for a NaN is the word of the all-ones NaN triple (R43). -/
theorem word64_nan (s : SignBit) : word64 (.nan s) = wordOfFields (nanFields .p64 s) := rfl

/-- The word of in-range binary64 fields denotes their value (R42). -/
theorem val64_wordOfFields {f : Fields} (hf : f.InRange .p64) : val64 (wordOfFields f) = encodeVal .p64 f := by
  rw [val64, fieldsOfWord_wordOfFields f hf]

theorem val64_word64_encodeVal_p64 {f : Fields} (hf : f.InRange .p64) :
    val64 (word64 (encodeVal .p64 f)) = encodeVal .p64 f := by
  by_cases hnan : NanFields .p64 f
  · rw [encodeVal_of_nanFields hnan, word64_nan, val64_wordOfFields (nanFields_inRange .p64 _), encodeVal_nanFields]
  · rw [word64_encodeVal_p64 hf hnan, val64_wordOfFields hf]

/-! ### Binary32 fields as binary64 fields -/

/-- The binary64 fields of the same value as given binary32 fields: a subnormal is normalised at its leading 1, every
other triple gets the wider bias and 29 more mantissa bits. -/
def widenFields (f : Fields) : Fields :=
  if f.e = 0 then
    if f.m = 0 then f
    else ⟨f.sign, Nat.log2 f.m + 874, (f.m - 2 ^ Nat.log2 f.m) * 2 ^ (52 - Nat.log2 f.m)⟩
  else if f.e = 255 then ⟨f.sign, 2047, f.m * 2 ^ 29⟩
  else ⟨f.sign, f.e + 896, f.m * 2 ^ 29⟩

theorem widenFields_subnormal (s : SignBit) {m : Nat} (hm : m ≠ 0) :
    widenFields ⟨s, 0, m⟩ = ⟨s, Nat.log2 m + 874, (m - 2 ^ Nat.log2 m) * 2 ^ (52 - Nat.log2 m)⟩ := by
  simp [widenFields, hm]

theorem widenFields_emax (s : SignBit) (m : Nat) : widenFields ⟨s, 255, m⟩ = ⟨s, 2047, m * 2 ^ 29⟩ := rfl

theorem widenFields_normal (s : SignBit) {e : Nat} (h0 : 0 < e) (h1 : e < 255) (m : Nat) :
    widenFields ⟨s, e, m⟩ = ⟨s, e + 896, m * 2 ^ 29⟩ := by
  simp [widenFields, h0.ne', h1.ne]

/-- Factors of two move between an integer and the power of two it is scaled by. -/
theorem cast_mul_two_pow_mul_zpow (n j : ℕ) (u : ℤ) :
    ((n * 2 ^ j : ℕ) : ℚ≥0) * (2 : ℚ≥0) ^ u = (n : ℚ≥0) * (2 : ℚ≥0) ^ (u + j) := by
  rw [zpow_add₀ two_ne_zero_nnrat, zpow_natCast]
  push_cast
  ring

/-- The leading 1 of a 23-bit mantissa, and the bits below it as 52 bits. -/
theorem normalised_mantissa {m : Nat} (h0 : m ≠ 0) (hm : m < 2 ^ 23) :
    Nat.log2 m ≤ 22 ∧ (m - 2 ^ Nat.log2 m) * 2 ^ (52 - Nat.log2 m) < 2 ^ 52 ∧
      2 ^ Precision.p64.M + (m - 2 ^ Nat.log2 m) * 2 ^ (52 - Nat.log2 m) = m * 2 ^ (52 - Nat.log2 m) := by
  have hk : Nat.log2 m < 23 := (Nat.log2_lt h0).2 hm
  have hlo : 2 ^ Nat.log2 m ≤ m := Nat.log2_self_le h0
  have hhi : m < 2 ^ (Nat.log2 m + 1) := Nat.lt_log2_self
  have h52 : 2 ^ Nat.log2 m * 2 ^ (52 - Nat.log2 m) = 2 ^ 52 := by
    rw [← pow_add]
    congr 1
    omega
  refine ⟨by omega, ?_, ?_⟩
  · rw [← h52]
    have hrest : m - 2 ^ Nat.log2 m < 2 ^ Nat.log2 m := by
      rw [pow_succ] at hhi
      omega
    exact Nat.mul_lt_mul_of_pos_right hrest (Nat.two_pow_pos _)
  · rw [Precision.M_p64, ← h52, ← Nat.add_mul, Nat.add_sub_cancel' hlo]

/-- A binary32 subnormal is a binary64 normal number, with its leading 1 as the hidden bit (R59). -/
theorem widenFields_subnormal_spec (s : SignBit) {m : Nat} (h0 : m ≠ 0) (hm : m < 2 ^ 23) :
    (widenFields ⟨s, 0, m⟩).InRange .p64 ∧ encodeVal .p64 (widenFields ⟨s, 0, m⟩) = encodeVal .p32 ⟨s, 0, m⟩ := by
  obtain ⟨hk, hlt, hsum⟩ := normalised_mantissa h0 hm
  have hexp : ((Nat.log2 m + 874 : ℕ) : ℤ) - Precision.p64.bias - Precision.p64.M + (52 - Nat.log2 m : ℕ) =
      1 - Precision.p32.bias - Precision.p32.M := by
    simp only [Precision.bias_p64, Precision.M_p64, Precision.bias_p32, Precision.M_p32]
    omega
  rw [widenFields_subnormal s h0]
  constructor
  · exact ⟨by simp only [Precision.emax_p64]; omega, hlt⟩
  · rw [encodeVal_normal .p64 s _ _ (by omega) (by simp only [Precision.emax_p64]; omega), hsum,
      cast_mul_two_pow_mul_zpow, hexp, encodeVal_subnormal]

/-- A binary32 normal number keeps its mantissa bits on top of 29 zeros (R59). -/
theorem widenFields_normal_spec (s : SignBit) {e m : Nat} (h0 : 0 < e) (h1 : e < 255) (hm : m < 2 ^ 23) :
    (widenFields ⟨s, e, m⟩).InRange .p64 ∧ encodeVal .p64 (widenFields ⟨s, e, m⟩) = encodeVal .p32 ⟨s, e, m⟩ := by
  have hsum : 2 ^ Precision.p64.M + m * 2 ^ 29 = (2 ^ Precision.p32.M + m) * 2 ^ 29 := by
    rw [Precision.M_p64, Precision.M_p32]
    ring
  have hexp : ((e + 896 : ℕ) : ℤ) - Precision.p64.bias - Precision.p64.M + (29 : ℕ) =
      e - Precision.p32.bias - Precision.p32.M := by
    simp only [Precision.bias_p64, Precision.M_p64, Precision.bias_p32, Precision.M_p32]
    omega
  rw [widenFields_normal s h0 h1]
  constructor
  · constructor
    · simp only [Precision.emax_p64]
      omega
    · simp only [Precision.M_p64]
      omega
  · rw [encodeVal_normal .p64 s _ _ (by omega) (by simp only [Precision.emax_p64]; omega), hsum,
      cast_mul_two_pow_mul_zpow, hexp, encodeVal_normal .p32 s e m h0 h1]

/-- Exponent EMAX is an infinity or a NaN at both precisions (R59). -/
theorem widenFields_emax_spec (s : SignBit) {m : Nat} (hm : m < 2 ^ 23) :
    (widenFields ⟨s, 255, m⟩).InRange .p64 ∧ encodeVal .p64 (widenFields ⟨s, 255, m⟩) = encodeVal .p32 ⟨s, 255, m⟩ := by
  rw [widenFields_emax]
  constructor
  · exact ⟨le_rfl, by simp only [Precision.M_p64]; omega⟩
  · obtain rfl | h0 := eq_or_ne m 0
    · exact (encodeVal_infinity .p64 s).trans (encodeVal_infinity .p32 s).symm
    · exact (encodeVal_nan .p64 s (m * 2 ^ 29) (by omega)).trans (encodeVal_nan .p32 s m h0).symm

/-- Widened fields are in range and have the value of the binary32 fields. -/
theorem widenFields_spec {f : Fields} (hf : f.InRange .p32) :
    (widenFields f).InRange .p64 ∧ encodeVal .p64 (widenFields f) = encodeVal .p32 f := by
  obtain ⟨s, e, m⟩ := f
  obtain ⟨he, hm⟩ : e ≤ 255 ∧ m < 2 ^ 23 := hf
  obtain rfl | h0 := Nat.eq_zero_or_pos e
  · obtain rfl | hm0 := eq_or_ne m 0
    · exact ⟨⟨Nat.zero_le _, Nat.two_pow_pos _⟩, (encodeVal_zero .p64 s).trans (encodeVal_zero .p32 s).symm⟩
    · exact widenFields_subnormal_spec s hm0 hm
  obtain h1 | rfl := he.lt_or_eq
  · exact widenFields_normal_spec s h0 h1 hm
  · exact widenFields_emax_spec s hm

/-! ### The word of an encoded value -/

/-- The word written denotes the value encoded (R54); a binary32 value is that of the widened fields. -/
theorem val64_word64_encodeVal {P : Precision} {f : Fields} (hf : f.InRange P) :
    val64 (word64 (encodeVal P f)) = encodeVal P f := by
  cases P with
  | p32 =>
    obtain ⟨hrange, hval⟩ := widenFields_spec hf
    rw [← hval, val64_word64_encodeVal_p64 hrange]
  | p64 => exact val64_word64_encodeVal_p64 hf

/-- A word of a finite value is no NaN word. -/
theorem not_nanFields_of_val64_eq_fin {w : ValueWord} {s : SignBit} {q : ℚ≥0} (h : val64 w = .fin s q) :
    ¬ NanFields .p64 (fieldsOfWord w) := by
  intro hnan
  rw [val64, encodeVal_of_nanFields hnan] at h
  exact Val.noConfusion h

/-- Settles O36: the word of an encoded value denotes it, and words of one finite value have the same fields, by the
injectivity of the encoder. -/
theorem encodedValuesHaveExactlyOneValueWord : Obligations.EncodedValuesHaveExactlyOneValueWord := by
  refine ⟨fun P f => val64_word64_encodeVal, fun w w' s q h h' => ?_⟩
  have hfields : fieldsOfWord w = fieldsOfWord w' :=
    encodeIsInjectiveOffNan .p64 _ _ (fieldsOfWord_inRange w) (fieldsOfWord_inRange w')
      (not_nanFields_of_val64_eq_fin h) (not_nanFields_of_val64_eq_fin h') (h.trans h'.symm)
  rw [← wordOfFields_fieldsOfWord w, hfields, wordOfFields_fieldsOfWord]

end Sys2Proof.Machine
end

section
/-! PROOFS. The decoder's closed form (R62), the class of a decoded magnitude (R79, R98), underflow to zero (R84), the
order of magnitudes (R97) and the largest finite fields (R90). -/

namespace Sys2Proof.Machine

open Sys2Proof

/-! ### The closed form -/

theorem div_two_zpow_sub (q : ℚ≥0) (k M : ℤ) : q / (2 : ℚ≥0) ^ (k - M) = q * (2 : ℚ≥0) ^ (M - k) := by
  rw [div_eq_mul_inv, ← zpow_neg, neg_sub]

/-- Settles O39: the closed form by the three ranges of the magnitude, and the bounds of each range's window. -/
theorem decodeIsTheClosedForm : Obligations.DecodeIsTheClosedForm := by
  refine fun P s => ⟨rfl, rfl, fun q => decodeVal_saturates s, fun q k hmin hbound hk hk' => ?normal,
    fun q hq => ⟨decodeVal_subnormal s hq, subnormal_window P hq, subnormal_window_eq_zero_iff P q⟩⟩
  case normal =>
    have hpow := two_zpow_le_iff_of_binade hk hk'
    have hlo : 1 - (P.bias : ℤ) ≤ k := (hpow _).1 hmin
    have hhi : ¬ (P.bias : ℤ) + 1 ≤ k := fun h => not_lt.mpr ((hpow _).2 h) hbound
    rw [div_two_zpow_sub]
    exact ⟨decodeVal_normal s hk hk' hlo (by omega), hlo, by omega, window_bounds P.M hk hk'⟩

/-! ### Classes -/

/-- Settles O50: each of the five answers of `classify` with its condition; EMAX is not 0. -/
theorem classifyIsTheFiveDisjointCases : Obligations.ClassifyIsTheFiveDisjointCases := by
  intro P e m he _
  have hemax := P.emax_eq
  obtain ⟨hc, h⟩ | ⟨hc, h⟩ | ⟨hc, h⟩ | ⟨hc, h⟩ | ⟨hc, h⟩ := classify_cases P m he
  all_goals
    rw [hc]
    simp only [reduceCtorEq, true_iff, false_iff]
    omega

/-- The class of a decoded finite value, by its magnitude (R98). -/
theorem classify_decodeVal_fin (P : Precision) (s : SignBit) (q : ℚ≥0) :
    classify P (decodeVal P (.fin s q)).e (decodeVal P (.fin s q)).m =
      if (2 : ℚ≥0) ^ ((P.bias : ℤ) + 1) ≤ q then .infinity
      else if (2 : ℚ≥0) ^ (1 - (P.bias : ℤ)) ≤ q then .normal
      else if (2 : ℚ≥0) ^ (1 - (P.bias : ℤ) - (P.M : ℤ)) ≤ q then .subnormal
      else .zero := by
  have hemax := P.emax_eq
  obtain hsat | hsub | ⟨k, hlo, hhi, hk, hk'⟩ := magnitude_cases P q
  · rw [if_pos hsat, decodeVal_saturates s hsat]
    exact classify_emax_zero P
  · have hbound : q < (2 : ℚ≥0) ^ ((P.bias : ℤ) + 1) :=
      hsub.trans_le (zpow_le_zpow_right₀ one_le_two (by omega))
    rw [if_neg (not_le.mpr hbound), if_neg (not_le.mpr hsub), decodeVal_subnormal s hsub, classify_zero_exponent]
    simp only [subnormal_window_eq_zero_iff, ← not_le, ite_not]
  · have hpow := two_zpow_le_iff_of_binade hk hk'
    rw [if_neg (by rw [hpow]; omega), if_pos ((hpow _).2 hlo), decodeVal_normal s hk hk' hlo hhi, classify,
      if_neg (by dsimp only; omega), if_neg (by dsimp only; omega)]

/-- The three bounds of R98 in their order. -/
theorem magnitude_bounds_ordered (P : Precision) :
    (2 : ℚ≥0) ^ (1 - (P.bias : ℤ) - (P.M : ℤ)) ≤ (2 : ℚ≥0) ^ (1 - (P.bias : ℤ)) ∧
      (2 : ℚ≥0) ^ (1 - (P.bias : ℤ)) ≤ (2 : ℚ≥0) ^ ((P.bias : ℤ) + 1) :=
  ⟨zpow_le_zpow_right₀ one_le_two (by omega), zpow_le_zpow_right₀ one_le_two (by omega)⟩

/-- Settles O51: the class by the three bounds, which are in order. -/
theorem classOfADecodedValueByItsMagnitude : Obligations.ClassOfADecodedValueByItsMagnitude := by
  intro P s q
  obtain ⟨hsub, hnormal⟩ := magnitude_bounds_ordered P
  simp only [classify_decodeVal_fin]
  split_ifs with hinf hnorm hsubn
  all_goals
    simp only [reduceCtorEq, true_iff, false_iff, ne_eq, not_false_eq_true, and_true]
    grind

/-! ### Underflow to zero -/

/-- The sign of a decoded finite value is known, so its exponent and mantissa determine its fields. -/
theorem decodeVal_fin_eq_iff (P : Precision) (s : SignBit) (q : ℚ≥0) (e m : Nat) :
    decodeVal P (.fin s q) = ⟨s, e, m⟩ ↔ (decodeVal P (.fin s q)).e = e ∧ (decodeVal P (.fin s q)).m = m := by
  have hsign := decodeVal_fin_sign P s q
  generalize decodeVal P (.fin s q) = f at hsign ⊢
  subst hsign
  obtain ⟨s, e', m'⟩ := f
  simp

/-- Fields are those of a zero when their class is Zero (R79). -/
theorem decodeVal_fin_eq_zero_iff (P : Precision) (s : SignBit) (q : ℚ≥0) :
    decodeVal P (.fin s q) = ⟨s, 0, 0⟩ ↔ q < (2 : ℚ≥0) ^ (1 - (P.bias : ℤ) - (P.M : ℤ)) := by
  obtain ⟨he, hm⟩ := decodeVal_fin_inRange P s q
  rw [decodeVal_fin_eq_iff, ← (classOfADecodedValueByItsMagnitude P s q).1,
    (classifyIsTheFiveDisjointCases P _ _ he hm).1]

/-- At precision 32 a word decodes to zero exactly up to the exponent field 873 (R84). -/
theorem decodeVal_p32_eq_zero_iff_wordExp (w : ValueWord) :
    decodeVal .p32 (val64 w) = ⟨wordSign w, 0, 0⟩ ↔ wordExp w ≤ 873 := by
  by_cases hw : wordExp w = 2047
  · obtain ⟨-, -, hword, -⟩ := nanAndInfinityDecode
    rw [hword .p32 w hw, hw]
    simp
  · obtain ⟨q, hq, hpow⟩ := val64_finite_magnitude hw
    have h149 := hpow (1 - 127 - 23) (by norm_num)
    rw [hq, decodeVal_fin_eq_zero_iff, ← not_le]
    refine (not_congr h149).trans ?_
    omega

/-- A decode at precision 64 loses nothing of the value of a word (R42, R119). -/
theorem encodeVal_p64_decodeVal_val64 (w : ValueWord) : encodeVal .p64 (decodeVal .p64 (val64 w)) = val64 w :=
  encodeVal_decodeVal_encodeVal (fieldsOfWord_inRange w)

/-- At precision 64 only a zero decodes to zero (R84). -/
theorem decodeVal_p64_eq_zero_iff (w : ValueWord) :
    decodeVal .p64 (val64 w) = ⟨wordSign w, 0, 0⟩ ↔ val64 w = .fin (wordSign w) 0 := by
  constructor
  · intro h
    rw [← encodeVal_p64_decodeVal_val64 w, h, encodeVal_zero]
  · intro h
    rw [h, decodeVal_zero]

/-- Settles O45: fields of a zero are the class Zero, which has its bound; a finite word's exponent field decides
whether its magnitude reaches the binary32 bound. -/
theorem underflowToZeroKeepsTheSign : Obligations.UnderflowToZeroKeepsTheSign :=
  ⟨decodeVal_fin_eq_zero_iff, decodeVal_p32_eq_zero_iff_wordExp, decodeVal_p64_eq_zero_iff⟩

/-! ### Signs and order -/

theorem decodeVal_withSign (P : Precision) (s : SignBit) (v : Val) :
    decodeVal P (withSign s v) = { decodeVal P v with sign := s } := by
  cases v with
  | nan _ => rfl
  | inf _ => rfl
  | fin _ q =>
    simp only [withSign, decodeVal]
    split_ifs <;> rfl

theorem encodeVal_eq_withSign (P : Precision) (s s' : SignBit) (e m : Nat) :
    encodeVal P ⟨s, e, m⟩ = withSign s (encodeVal P ⟨s', e, m⟩) := by
  simp only [encodeVal]
  cases classify P e m <;> rfl

/-- Windows at one weight keep the order of the magnitudes. -/
theorem floor_mul_two_zpow_mono {q1 q2 : ℚ≥0} (h : q1 ≤ q2) (u : ℤ) :
    ⌊q1 * (2 : ℚ≥0) ^ u⌋₊ ≤ ⌊q2 * (2 : ℚ≥0) ^ u⌋₊ :=
  Nat.floor_mono (mul_le_mul_of_nonneg_right h zero_le)

/-- Decode keeps the order of magnitudes: an earlier range or binade has the lower exponents, and within one the window
decides (R97). -/
theorem decodeVal_fin_mono (P : Precision) (s : SignBit) {q1 q2 : ℚ≥0} (h : q1 ≤ q2) :
    (decodeVal P (.fin s q1)).e < (decodeVal P (.fin s q2)).e ∨
      ((decodeVal P (.fin s q1)).e = (decodeVal P (.fin s q2)).e ∧
        (decodeVal P (.fin s q1)).m ≤ (decodeVal P (.fin s q2)).m) := by
  obtain hsat2 | hsub2 | ⟨k2, hlo2, hhi2, hk2, hk2'⟩ := magnitude_cases P q2
  · rw [decodeVal_saturates s hsat2]
    obtain hsat1 | hbelow := le_or_gt ((2 : ℚ≥0) ^ ((P.bias : ℤ) + 1)) q1
    · rw [decodeVal_saturates s hsat1]
      exact .inr ⟨rfl, le_rfl⟩
    · exact .inl (decodeVal_e_lt_emax s hbelow)
  · rw [decodeVal_subnormal s hsub2, decodeVal_subnormal s (h.trans_lt hsub2)]
    exact .inr ⟨rfl, floor_mul_two_zpow_mono h _⟩
  · rw [decodeVal_normal s hk2 hk2' hlo2 hhi2]
    obtain hsat1 | hsub1 | ⟨k1, hlo1, hhi1, hk1, hk1'⟩ := magnitude_cases P q1
    · have hk := (two_zpow_le_iff_of_binade hk2 hk2' _).1 (hsat1.trans h)
      omega
    · rw [decodeVal_subnormal s hsub1]
      dsimp only
      omega
    · rw [decodeVal_normal s hk1 hk1' hlo1 hhi1]
      have hk : k1 ≤ k2 := (two_zpow_le_iff_of_binade hk2 hk2' _).1 (hk1.trans h)
      obtain hk | rfl := hk.lt_or_eq
      · dsimp only
        omega
      · exact .inr ⟨rfl, Nat.sub_le_sub_right (floor_mul_two_zpow_mono h _) _⟩

/-- Settles O57: the sign is copied in every case of both functions, and the order goes by range, binade, window. -/
theorem decodeIsSignSymmetricAndMonotone : Obligations.DecodeIsSignSymmetricAndMonotone :=
  ⟨decodeVal_withSign, encodeVal_eq_withSign, fun P s _ _ => decodeVal_fin_mono P s⟩

/-! ### The largest finite fields -/

/-- The largest finite magnitude in the form of R90. -/
theorem largest_finite_formula (P : Precision) :
    (((2 ^ P.M + (2 ^ P.M - 1) : ℕ) : ℚ≥0) * (2 : ℚ≥0) ^ (((P.emax - 1 : ℕ) : ℤ) - P.bias - P.M) : ℚ≥0) =
      (2 - (2 : ℚ) ^ (-(P.M : ℤ))) * (2 : ℚ) ^ (P.bias : ℤ) := by
  have hexp : ((P.emax - 1 : ℕ) : ℤ) - P.bias - P.M = P.bias - P.M := by
    have := P.emax_eq
    omega
  have hcast : ((2 ^ P.M - 1 : ℕ) : ℚ) = 2 ^ P.M - 1 := by
    rw [Nat.cast_sub Nat.one_le_two_pow]
    push_cast
    rfl
  rw [hexp, zpow_neg, zpow_sub₀ two_ne_zero_nnrat, zpow_natCast, zpow_natCast, zpow_natCast, zpow_natCast]
  generalize 2 ^ P.M - 1 = n at hcast ⊢
  push_cast
  rw [hcast]
  field_simp
  ring

/-- Settles O47: the largest finite fields are those of the largest finite magnitude; by the order of decode every
magnitude from there up to the bound has them, and by truncation no smaller one. -/
theorem magnitudesUpToTheBoundTruncateToTheLargestFinite :
    Obligations.MagnitudesUpToTheBoundTruncateToTheLargestFinite := by
  intro P s q
  have hemax := P.emax_eq
  have hbias := P.bias_pos
  have hm : 2 ^ P.M - 1 < 2 ^ P.M := Nat.sub_lt (Nat.two_pow_pos P.M) one_pos
  have hval := encodeVal_normal P s (P.emax - 1) (2 ^ P.M - 1) (by omega) (by omega)
  have hdec := decodeVal_normal_multiple P s (e := P.emax - 1) (by omega) (by omega) hm
  have hbound : (q : ℚ) < (2 : ℚ) ^ ((P.bias : ℤ) + 1) ↔ q < (2 : ℚ≥0) ^ ((P.bias : ℤ) + 1) := by
    rw [← NNRat.cast_lt (K := ℚ)]
    push_cast
    rfl
  rw [← largest_finite_formula, NNRat.cast_le, hbound]
  constructor
  · intro h
    rw [← h] at hval
    exact ⟨(truncationLosesLessThanOneUnitInTheLastPlace P s q _ hval).1,
      lt_bound_of_encodeVal_decodeVal_eq_fin hval⟩
  · rintro ⟨hle, hlt⟩
    have he := decodeVal_e_lt_emax s hlt
    have hmant := (decodeVal_fin_inRange P s q).2
    have hmono := decodeVal_fin_mono P s hle
    rw [hdec] at hmono
    dsimp only at hmono
    rw [decodeVal_fin_eq_iff]
    omega

end Sys2Proof.Machine
end

section
/-! PROOFS. The ENCODE commands on bits (R58, R59) and the sign of their result (R60). -/

namespace Sys2Proof.Machine

open Sys2Proof

/-! ### Operands of an encode -/

/-- 8 and 23 bits on the wider ports are the ports of their numbers (R40). -/
theorem expPort_setWidth (s : SignBit) (e : BitVec 8) (m : Nat) : expPort ⟨s, e.toNat, m⟩ = e.setWidth 11 := by
  apply BitVec.eq_of_toNat_eq
  simp [expPort]

theorem manPort_setWidth (s : SignBit) (e : Nat) (m : BitVec 23) : manPort ⟨s, e, m.toNat⟩ = m.setWidth 52 := by
  apply BitVec.eq_of_toNat_eq
  simp [manPort]

theorem inRange_p32 (s : SignBit) (e : BitVec 8) (m : BitVec 23) : Fields.InRange .p32 ⟨s, e.toNat, m.toNat⟩ := by
  constructor <;> simp only [Precision.emax_p32, Precision.M_p32] <;> omega

theorem inRange_p64 (s : SignBit) (e : ExpPort) (m : ManPort) : Fields.InRange .p64 ⟨s, e.toNat, m.toNat⟩ := by
  constructor <;> simp only [Precision.emax_p64, Precision.M_p64] <;> omega

/-- An encode of in-range fields on their own ports writes their value word and their class (R55). -/
theorem writeOutcome_encodeOutcome_ports {P : Precision} {f : Fields} (hf : f.InRange P) (s : State) :
    writeOutcome (encodeOutcome P f.sign (expPort f) (manPort f)) s =
      writeValue P (word64 (encodeVal P f)) (classify P f.e f.m) s := by
  obtain ⟨hpad, hports, -, -⟩ := ports_of_fields hf
  rw [writeOutcome_encodeOutcome_of_no_padding hpad, hports]

theorem exec_enc32_setWidth (sg : SignBit) (e : BitVec 8) (m : BitVec 23) (s : State) :
    exec (.enc32 sg (e.setWidth 11) (m.setWidth 52)) s =
      .next (writeValue .p32 (word64 (encodeVal .p32 ⟨sg, e.toNat, m.toNat⟩)) (classify .p32 e.toNat m.toNat) s) := by
  rw [exec_eq, outcomeOf, ← expPort_setWidth sg e m.toNat, ← manPort_setWidth sg e.toNat m]
  exact congrArg Host.Outcome.next (writeOutcome_encodeOutcome_ports (inRange_p32 sg e m) s)

theorem exec_enc64 (sg : SignBit) (e : ExpPort) (m : ManPort) (s : State) :
    exec (.enc64 sg e m) s =
      .next (writeValue .p64 (word64 (encodeVal .p64 ⟨sg, e.toNat, m.toNat⟩)) (classify .p64 e.toNat m.toNat) s) := by
  rw [exec_eq, outcomeOf, writeOutcome_encodeOutcome_of_no_padding rfl, fieldsOfPorts_p64]

/-! ### The forms on bits -/

/-- The word ENC64 writes, on bits (R58). -/
theorem word64_encodeVal_eq_enc64Bits (sg : SignBit) (e : ExpPort) (m : ManPort) :
    word64 (encodeVal .p64 ⟨sg, e.toNat, m.toNat⟩) = enc64Bits sg e m := by
  have hnan : NanFields .p64 ⟨sg, e.toNat, m.toNat⟩ ↔ e = 2047#11 ∧ m ≠ 0#52 :=
    and_congr (BitVec.toNat_inj (y := 2047#11)) (not_congr (BitVec.toNat_inj (y := 0#52)))
  unfold enc64Bits
  split
  · next h =>
    rw [encodeVal_of_nanFields (hnan.2 h)]
    rfl
  · next h =>
    rw [word64_encodeVal_p64 (inRange_p64 sg e m) (mt hnan.1 h), wordOfFields, expPort_toNat, manPort_toNat]

/-- Settles O27: the word is that of the fields unless they are a NaN's. -/
theorem enc64IsItsFormOnBits : Obligations.Enc64IsItsFormOnBits := by
  intro sg e m s
  rw [exec_enc64, word64_encodeVal_eq_enc64Bits]
  rfl

/-- 23 mantissa bits on top of 29 zeros (R59). -/
theorem wordOfFields_mul_two_pow (s : SignBit) (x : ℕ) (m : BitVec 23) :
    wordOfFields ⟨s, x, m.toNat * 2 ^ 29⟩ = s ++ BitVec.ofNat 11 x ++ m ++ 0#29 := by
  have hman : manPort ⟨s, x, m.toNat * 2 ^ 29⟩ = m ++ 0#29 := by
    apply BitVec.eq_of_toNat_eq
    simp only [manPort, BitVec.toNat_ofNat, BitVec.toNat_append, Nat.shiftLeft_eq, Nat.zero_mod, Nat.or_zero]
    omega
  rw [wordOfFields, hman, expPort]
  ext i hi
  simp only [BitVec.getElem_append, BitVec.getElem_zero]
  grind

/-- The word written for binary32 fields that are no NaN is the word of the widened fields (R59). -/
theorem word64_encodeVal_p32 {f : Fields} (hf : f.InRange .p32) (hnan : ¬ NanFields .p32 f) :
    word64 (encodeVal .p32 f) = wordOfFields (widenFields f) := by
  obtain ⟨hrange, hval⟩ := widenFields_spec hf
  have hwide : ¬ NanFields .p64 (widenFields f) := fun h =>
    hnan (nanFields_of_encodeVal_eq_nan hf (hval.symm.trans (encodeVal_of_nanFields h)))
  rw [← hval, word64_encodeVal_p64 hrange hwide]

/-- The word ENC32 writes, on bits (R59). -/
theorem word64_encodeVal_eq_enc32Bits (sg : SignBit) (e : BitVec 8) (m : BitVec 23) :
    word64 (encodeVal .p32 ⟨sg, e.toNat, m.toNat⟩) = enc32Bits sg e m := by
  have hf := inRange_p32 sg e m
  have hm0 : m = 0#23 ↔ m.toNat = 0 := BitVec.toNat_inj.symm
  have he0 : e = 0#8 ↔ e.toNat = 0 := BitVec.toNat_inj.symm
  have he255 : e = 255#8 ↔ e.toNat = 255 := BitVec.toNat_inj.symm
  unfold enc32Bits
  split_ifs with h255 hm h0 hm
  · subst h255 hm
    exact congrArg word64 (encodeVal_infinity .p32 sg)
  · rw [encodeVal_of_nanFields (P := .p32) ⟨he255.1 h255, mt hm0.2 hm⟩]
    rfl
  · subst h0 hm
    exact (congrArg word64 (encodeVal_zero .p32 sg)).trans (word64_zero sg)
  · rw [word64_encodeVal_p32 hf fun h => h255 (he255.2 h.1), he0.1 h0, widenFields_subnormal sg (mt hm0.2 hm)]
    rfl
  · rw [he0] at h0
    rw [he255] at h255
    rw [word64_encodeVal_p32 hf fun h => h255 h.1, widenFields_normal sg (by omega) (by omega),
      wordOfFields_mul_two_pow]

/-- Settles O26: the word is that of the widened fields unless they are a NaN's. -/
theorem enc32IsItsFormOnBits : Obligations.Enc32IsItsFormOnBits := by
  intro sg e m s
  rw [exec_enc32_setWidth, word64_encodeVal_eq_enc32Bits]
  rfl

/-! ### The sign of the result -/

/-- The word written carries the sign of the fields, as its value does (R60). -/
theorem wordSign_word64_encodeVal {P : Precision} {f : Fields} (hf : f.InRange P) :
    wordSign (word64 (encodeVal P f)) = f.sign := by
  rw [← decodeVal_val64_sign .p64, val64_word64_encodeVal hf, ← withSign_encodeVal, decodeVal_withSign_sign]

/-- What an encode reads from its ports is in range (R40). -/
theorem fieldsOfPorts_inRange (P : Precision) (sg : SignBit) (e : ExpPort) (m : ManPort) :
    (fieldsOfPorts P sg e m).InRange P :=
  ⟨Nat.le_sub_one_of_lt (BitVec.isLt _), BitVec.isLt _⟩

/-- With no padding bit set, an encode leaves `sign_in` in bit 63 of `R_VAL` (R60). -/
theorem writeOutcome_encodeOutcome_wordSign {P : Precision} {e : ExpPort} {m : ManPort}
    (hpad : paddingSet P e m = false) (sg : SignBit) (s : State) :
    ∃ w, (writeOutcome (encodeOutcome P sg e m) s).rVal = some w ∧ wordSign w = sg := by
  rw [writeOutcome_encodeOutcome_of_no_padding hpad]
  exact ⟨_, rfl, wordSign_word64_encodeVal (fieldsOfPorts_inRange P sg e m)⟩

/-- Settles O29: the word written denotes the value encoded, whose sign is `sign_in`. -/
theorem encodeCopiesTheSignBit : Obligations.EncodeCopiesTheSignBit := by
  refine fun sg e m s => ⟨?_, fun hpad => ?_⟩
  · obtain ⟨w, hw⟩ := writeOutcome_encodeOutcome_wordSign (P := .p64) (e := e) (m := m) rfl sg s
    exact ⟨_, w, exec_eq _ s, hw⟩
  · obtain ⟨w, hw⟩ := writeOutcome_encodeOutcome_wordSign hpad sg s
    exact ⟨_, w, exec_eq _ s, hw⟩

end Sys2Proof.Machine
end

section
/-! PROOFS. The DECODE commands on bits (R76, R77), the two directions one after the other on the ports (R93, R94), and
the two precisions compared (R96). -/

namespace Sys2Proof.Machine

open Sys2Proof

/-! ### DEC64 on bits -/

theorem nanWord_iff (w : ValueWord) : NanWord w ↔ NanFields .p64 (fieldsOfWord w) :=
  and_congr Iff.rfl (not_congr (BitVec.toNat_inj (y := 0#52)).symm)

/-- DEC64 reads off the fields of a word that is no NaN (R77). -/
theorem decodeVal_p64_val64 {w : ValueWord} (h : ¬ NanWord w) : decodeVal .p64 (val64 w) = fieldsOfWord w :=
  decodeVal_encodeVal (fieldsOfWord_inRange w) (mt (nanWord_iff w).2 h)

/-- The whole next state of a decode, for decoded fields given on their ports (R78). -/
theorem writeOutcome_decodeOutcome_of_ports {P : Precision} {w : ValueWord} {x : ExpPort} {y : ManPort}
    (h : decodeVal P (val64 w) = ⟨wordSign w, x.toNat, y.toNat⟩) (s : State) :
    writeOutcome (decodeOutcome P w) s =
      { s with status := some (statusWord 1#1 0#1 0#2 1#2 (precisionBit P)), rSign := some (wordSign w),
               rExp := some x, rMan := some y, rVal := none,
               rCls := some (classCode (classify P x.toNat y.toNat)) } := by
  rw [writeOutcome_decodeOutcome, h, writeFields, expPort_toNat, manPort_toNat]

/-- The exponent and mantissa that DEC64 reads are those of its form on bits (R77). -/
theorem decodeVal_p64_eq_dec64Bits (w : ValueWord) :
    decodeVal .p64 (val64 w) = ⟨wordSign w, (dec64Bits w).1.toNat, (dec64Bits w).2.toNat⟩ := by
  have hnan : NanWord w ↔ w.extractLsb' 52 11 = 2047#11 ∧ w.extractLsb' 0 52 ≠ 0#52 :=
    and_congr (BitVec.toNat_inj (y := 2047#11)) Iff.rfl
  unfold dec64Bits
  dsimp only
  split
  · next h =>
    rw [decodeVal_of_nanWord .p64 (hnan.2 h), h.1]
    rfl
  · next h =>
    rw [decodeVal_p64_val64 (mt hnan.1 h)]
    rfl

/-- Settles O25: the word's own fields, or the all-ones NaN. -/
theorem dec64IsItsFormOnBits : Obligations.Dec64IsItsFormOnBits := by
  intro v s
  rw [exec_eq, outcomeOf, writeOutcome_decodeOutcome_of_ports (decodeVal_p64_eq_dec64Bits v)]
  rfl

/-! ### DEC32 on bits -/

/-- A word of the normal range denotes its fraction with the hidden bit, at the weight of its exponent field (R42). -/
theorem val64_normal_word {w : ValueWord} (h0 : 0 < wordExp w) (h1 : wordExp w < 2047) :
    val64 w = .fin (wordSign w)
      (((2 ^ 52 + (wordFrac w).toNat : ℕ) : ℚ≥0) * (2 : ℚ≥0) ^ ((wordExp w : ℤ) - 1023 - (52 : ℕ))) :=
  encodeVal_normal .p64 (wordSign w) (wordExp w) (wordFrac w).toNat h0 h1

/-- Scaling down by a power of two and dropping the fraction is the integer division. -/
theorem floor_cast_mul_two_zpow_neg (n j : ℕ) : ⌊(n : ℚ≥0) * (2 : ℚ≥0) ^ (-(j : ℤ))⌋₊ = n / 2 ^ j := by
  have hcast : (n : ℚ≥0) * (2 : ℚ≥0) ^ (-(j : ℤ)) = (n : ℚ≥0) / ((2 ^ j : ℕ) : ℚ≥0) := by
    rw [zpow_neg, zpow_natCast, div_eq_mul_inv]
    push_cast
    rfl
  rw [hcast, Nat.floor_div_eq_div]

/-- The window of a scaled integer, taken lower down, is the integer with its low bits dropped. -/
theorem floor_window_div (n j : ℕ) {u v : ℤ} (h : u + v = -(j : ℤ)) :
    ⌊(n : ℚ≥0) * (2 : ℚ≥0) ^ u * (2 : ℚ≥0) ^ v⌋₊ = n / 2 ^ j := by
  rw [mul_assoc, ← zpow_add₀ two_ne_zero_nnrat, h, floor_cast_mul_two_zpow_neg]

/-- In the binary32 normal range DEC32 rebiases the exponent and drops 29 mantissa bits (R76). -/
theorem decodeVal_p32_normal_word {w : ValueWord} (hlo : 897 ≤ wordExp w) (hhi : wordExp w ≤ 1150) :
    decodeVal .p32 (val64 w) = ⟨wordSign w, wordExp w - 896, (wordFrac w).toNat / 2 ^ 29⟩ := by
  obtain ⟨hk, hk'⟩ := normal_magnitude_bounds 52 (wordFrac w).toNat ((wordExp w : ℤ) - 1023) (wordFrac w).isLt
  rw [val64_normal_word (by omega) (by omega), decodeVal_normal (P := .p32) _ hk hk'
    (by simp only [Precision.bias_p32]; omega) (by simp only [Precision.bias_p32]; omega)]
  have hwindow := floor_window_div (2 ^ 52 + (wordFrac w).toNat) 29
    (u := (wordExp w : ℤ) - 1023 - (52 : ℕ)) (v := (Precision.p32.M : ℤ) - ((wordExp w : ℤ) - 1023))
    (by simp only [Precision.M_p32]; omega)
  rw [hwindow]
  simp only [Precision.bias_p32, Precision.M_p32, Fields.mk.injEq, true_and]
  omega

/-- Below that range DEC32 gives a subnormal, by the weight that is left (R76). -/
theorem decodeVal_p32_subnormal_word {w : ValueWord} (hlo : 874 ≤ wordExp w) (hhi : wordExp w ≤ 896) :
    decodeVal .p32 (val64 w) = ⟨wordSign w, 0, (2 ^ 52 + (wordFrac w).toNat) / 2 ^ (926 - wordExp w)⟩ := by
  obtain ⟨-, hk'⟩ := normal_magnitude_bounds 52 (wordFrac w).toNat ((wordExp w : ℤ) - 1023) (wordFrac w).isLt
  have hsub := hk'.trans_le (zpow_le_zpow_right₀ one_le_two
    (show (wordExp w : ℤ) - 1023 + 1 ≤ 1 - Precision.p32.bias by simp only [Precision.bias_p32]; omega))
  rw [val64_normal_word (by omega) (by omega), decodeVal_subnormal (P := .p32) _ hsub]
  have hwindow := floor_window_div (2 ^ 52 + (wordFrac w).toNat) (926 - wordExp w)
    (u := (wordExp w : ℤ) - 1023 - (52 : ℕ)) (v := (Precision.p32.bias : ℤ) - 1 + Precision.p32.M)
    (by simp only [Precision.M_p32, Precision.bias_p32]; omega)
  rw [hwindow]

/-- The exponent and mantissa that DEC32 computes are those of its form on bits, line by line (R76). -/
theorem decodeVal_p32_eq_dec32Bits (w : ValueWord) :
    decodeVal .p32 (val64 w) = ⟨wordSign w, (dec32Bits w).1.toNat, (dec32Bits w).2.toNat⟩ := by
  have hX : (w.extractLsb' 52 11).toNat = wordExp w := rfl
  have hF : w.extractLsb' 0 52 = wordFrac w := rfl
  have hrange := decodeVal_inRange .p32 (val64 w)
  unfold dec32Bits
  simp only [hX, hF]
  split_ifs with h2047 hfrac h1151 h897 h874
  · rw [decodeVal_of_infinity_word .p32 h2047 hfrac]
    rfl
  · rw [decodeVal_of_nanWord .p32 ⟨h2047, hfrac⟩]
    rfl
  · rw [(decodeVal_p32_saturates_iff_wordExp h2047).2 h1151]
    rfl
  · rw [decodeVal_p32_normal_word h897 (by omega)]
    have := (wordFrac w).isLt
    simp only [BitVec.toNat_ofNat, BitVec.toNat_setWidth, BitVec.extractLsb'_toNat, Nat.shiftRight_eq_div_pow,
      Fields.mk.injEq, true_and]
    omega
  · have hsub := decodeVal_p32_subnormal_word h874 (by omega)
    rw [hsub] at hrange ⊢
    have hm : (2 ^ 52 + (wordFrac w).toNat) / 2 ^ (926 - wordExp w) < 2 ^ 23 := hrange.2
    dsimp only
    rw [BitVec.toNat_ofNat _ 52, Nat.mod_eq_of_lt (hm.trans (by norm_num))]
    rfl
  · exact (decodeVal_p32_eq_zero_iff_wordExp w).2 (by omega)

/-- Settles O24: the six lines of the form are ranges of the word's exponent field. -/
theorem dec32IsItsFormOnBits : Obligations.Dec32IsItsFormOnBits := by
  intro v s
  rw [exec_eq, outcomeOf, writeOutcome_decodeOutcome_of_ports (decodeVal_p32_eq_dec32Bits v)]
  rfl

/-! ### Encode then decode on the ports -/

/-- The word an encode wrote decodes to the fields presented, a NaN to the all-ones one (R94). -/
theorem decodeVal_val64_word64_encodeVal {P : Precision} {f : Fields} (hf : f.InRange P) :
    decodeVal P (val64 (word64 (encodeVal P f))) =
      if f.e = P.emax ∧ f.m ≠ 0 then nanFields P f.sign else f := by
  rw [val64_word64_encodeVal hf]
  split
  · next h => exact (fieldsSurviveEncodeThenDecode P f hf).2 h
  · next h => exact decodeVal_encodeVal hf h

/-- The registers a decode leaves are the ports of the decoded fields (R78). -/
theorem writeOutcome_decodeOutcome_registers {P : Precision} {w : ValueWord} {f : Fields}
    (h : decodeVal P (val64 w) = f) (s : State) :
    (writeOutcome (decodeOutcome P w) s).rSign = some f.sign ∧
      (writeOutcome (decodeOutcome P w) s).rExp = some (expPort f) ∧
      (writeOutcome (decodeOutcome P w) s).rMan = some (manPort f) := by
  rw [writeOutcome_decodeOutcome, h]
  exact ⟨rfl, rfl, rfl⟩

/-- Decoding the word an encode wrote leaves the ports of the fields presented, a NaN's mantissa all ones (R94). -/
theorem decode_of_encoded_registers {P : Precision} {f : Fields} (hf : f.InRange P) (t : State) :
    (writeOutcome (decodeOutcome P (word64 (encodeVal P f))) t).rSign = some f.sign ∧
      (writeOutcome (decodeOutcome P (word64 (encodeVal P f))) t).rExp = some (expPort f) ∧
      (writeOutcome (decodeOutcome P (word64 (encodeVal P f))) t).rMan =
        some (if f.e = P.emax ∧ f.m ≠ 0 then manPort (nanFields P f.sign) else manPort f) := by
  obtain ⟨hsg, he, hm⟩ := writeOutcome_decodeOutcome_registers (decodeVal_val64_word64_encodeVal hf) t
  rw [hsg, he, hm]
  split
  · next h => exact ⟨rfl, by rw [expPort, expPort, h.1]; rfl, rfl⟩
  · exact ⟨rfl, rfl, rfl⟩

/-- Settles O54: the word written denotes the value encoded, which decodes to the fields presented. -/
theorem encodeCommandThenDecodeCommandReturnsTheFields :
    Obligations.EncodeCommandThenDecodeCommandReturnsTheFields := by
  refine fun sg s => ⟨fun e m => ?_, fun e m => ?_⟩
  · obtain ⟨hsg, he, hm⟩ := decode_of_encoded_registers (inRange_p32 sg e m) (writeValue .p32
      (word64 (encodeVal .p32 ⟨sg, e.toNat, m.toNat⟩)) (classify .p32 e.toNat m.toNat) s)
    have hnan : e.toNat = Precision.p32.emax ∧ m.toNat ≠ 0 ↔ e = 255#8 ∧ m ≠ 0#23 :=
      and_congr (BitVec.toNat_inj (y := 255#8)) (not_congr (BitVec.toNat_inj (y := 0#23)))
    simp only [hnan, expPort_setWidth, manPort_setWidth] at he hm
    exact ⟨_, _, _, exec_enc32_setWidth sg e m s, rfl, exec_eq (.dec32 _) _, hsg, he, hm⟩
  · obtain ⟨hsg, he, hm⟩ := decode_of_encoded_registers (inRange_p64 sg e m) (writeValue .p64
      (word64 (encodeVal .p64 ⟨sg, e.toNat, m.toNat⟩)) (classify .p64 e.toNat m.toNat) s)
    have hnan : e.toNat = Precision.p64.emax ∧ m.toNat ≠ 0 ↔ e = 2047#11 ∧ m ≠ 0#52 :=
      and_congr (BitVec.toNat_inj (y := 2047#11)) (not_congr (BitVec.toNat_inj (y := 0#52)))
    simp only [hnan, expPort_toNat, manPort_toNat] at he hm
    exact ⟨_, _, _, exec_enc64 sg e m s, rfl, exec_eq (.dec64 _) _, hsg, he, hm⟩

/-! ### Decode then encode on the ports -/

/-- Encoding the registers a decode left writes the word of the value of the decoded fields (R93). -/
theorem encode_of_decoded_registers (P : Precision) (w : ValueWord) (t : State) :
    (writeOutcome (encodeOutcome P (decodeVal P (val64 w)).sign (expPort (decodeVal P (val64 w)))
      (manPort (decodeVal P (val64 w)))) t).rVal = some (word64 (encodeVal P (decodeVal P (val64 w)))) := by
  rw [writeOutcome_encodeOutcome_ports (decodeVal_inRange P (val64 w)), writeValue_rVal]

/-- At precision 64 a word that is no NaN comes back whole (R93). -/
theorem word64_val64 {w : ValueWord} (h : ¬ NanWord w) : word64 (val64 w) = w := by
  rw [val64, word64_encodeVal_p64 (fieldsOfWord_inRange w) (mt (nanWord_iff w).2 h), wordOfFields_fieldsOfWord]

/-- A word with its low 29 bits zero, by its exponent field and its high fraction bits. -/
theorem wordOfFields_high_bits (w : ValueWord) :
    wordOfFields ⟨wordSign w, wordExp w, (wordFrac w).toNat / 2 ^ 29 * 2 ^ 29⟩ = w.extractLsb' 29 35 ++ 0#29 := by
  have hfrac : (wordFrac w).toNat / 2 ^ 29 = (w.extractLsb' 29 23).toNat := by
    simp only [wordFrac, BitVec.extractLsb'_toNat, Nat.shiftRight_eq_div_pow]
    omega
  rw [hfrac, wordOfFields_mul_two_pow, wordExp, BitVec.ofNat_toNat, BitVec.setWidth_eq, wordSign]
  ext i hi
  simp only [BitVec.getElem_append, BitVec.getElem_extractLsb', BitVec.getElem_zero]
  grind

/-- In the binary32 normal range DEC32 then ENC32 drops the low 29 bits of the word (R93). -/
theorem word64_encodeVal_decodeVal_p32 {w : ValueWord} (hlo : 897 ≤ wordExp w) (hhi : wordExp w ≤ 1150) :
    word64 (encodeVal .p32 (decodeVal .p32 (val64 w))) = w.extractLsb' 29 35 ++ 0#29 := by
  have hrange := decodeVal_inRange .p32 (val64 w)
  rw [decodeVal_p32_normal_word hlo hhi] at hrange ⊢
  have hemax : wordExp w - 896 ≠ Precision.p32.emax := by
    rw [Precision.emax_p32]
    omega
  rw [word64_encodeVal_p32 hrange fun h => hemax h.1, widenFields_normal _ (by omega) (by omega),
    Nat.sub_add_cancel (by omega), wordOfFields_high_bits]

/-- Settles O55: the encode gets the decoded fields whole, so it writes the word of their value. -/
theorem decodeCommandThenEncodeCommandReturnsTheWord : Obligations.DecodeCommandThenEncodeCommandReturnsTheWord := by
  intro v s
  obtain ⟨hsg, he, hm⟩ := writeOutcome_decodeOutcome_registers (P := .p64) (w := v) rfl s
  obtain ⟨hsg32, he32, hm32⟩ := writeOutcome_decodeOutcome_registers (P := .p32) (w := v) rfl s
  refine ⟨⟨_, _, _, _, _, exec_eq (.dec64 v) s, hsg, he, hm, exec_eq (.enc64 ..) _, fun h => ?_, fun h => ?_⟩,
    fun hlo hhi => ⟨_, _, _, _, _, exec_eq (.dec32 v) s, hsg32, he32, hm32, exec_eq (.enc32 ..) _, ?_⟩⟩
  · exact (encode_of_decoded_registers .p64 v _).trans
      (by rw [encodeVal_p64_decodeVal_val64, word64_val64 h])
  · exact (encode_of_decoded_registers .p64 v _).trans
      (by rw [encodeVal_p64_decodeVal_val64, val64_of_nanWord h, word64])
  · exact (encode_of_decoded_registers .p32 v _).trans (by rw [word64_encodeVal_decodeVal_p32 hlo hhi])

/-! ### The two precisions -/

/-- Settles O58: in that range both commands read the word's own fields, DEC32 with another bias and fewer bits. -/
theorem precisionsAgreeInTheNormalRange : Obligations.PrecisionsAgreeInTheNormalRange := by
  intro v s hlo hhi
  have hnan : ¬ NanWord v := fun h => by
    obtain ⟨hexp, -⟩ := h
    omega
  have hfrac := (wordFrac v).isLt
  obtain ⟨-, he, hm⟩ := writeOutcome_decodeOutcome_registers (decodeVal_p32_normal_word hlo hhi) s
  obtain ⟨-, he', hm'⟩ := writeOutcome_decodeOutcome_registers (decodeVal_p64_val64 hnan)
    (writeOutcome (decodeOutcome .p32 v) s)
  refine ⟨_, _, _, _, _, _, exec_eq (.dec32 v) s, exec_eq (.dec64 v) _, he, he', hm, hm', ?_, ?_⟩
  · obtain ⟨-, -, he64, -⟩ := ports_of_fields_p64 _ (fieldsOfWord_inRange v)
    rw [he64, fieldsOfWord_eq, expPort, BitVec.toNat_ofNat]
    dsimp only
    omega
  · rw [fieldsOfWord_eq, manPort_toNat]
    apply BitVec.eq_of_toNat_eq
    simp only [manPort, BitVec.toNat_ofNat, BitVec.toNat_setWidth, BitVec.extractLsb'_toNat,
      Nat.shiftRight_eq_div_pow]
    omega

end Sys2Proof.Machine
end

section
/-! PROOFS. The source's loops compute the closed form (R71): the search for the leading fractional bit below 1, the
integer's bits from 1 on, and the window of either buffer. -/

namespace Sys2Proof.Machine

open Sys2Proof

/-! ### The window of a buffer -/

/-- Of a bit and M bits of a fraction, the mantissa is the fraction's (R69). -/
theorem windowMantissa_cons_fractionBits (P : Precision) (b : Bool) {f : ℚ} (h0 : 0 ≤ f) (h1 : f < 1) :
    windowMantissa P (b :: fractionBits P.M f) = ⌊f * 2 ^ P.M⌋₊ := by
  obtain ⟨hlen, hval⟩ := fractionBits_spec P.M f h0 h1
  rw [windowMantissa, List.take_of_length_le (by rw [List.length_cons, hlen]), List.drop_one, List.tail_cons, hval]

/-- The mantissa of a buffer whose first M+1 bits start with a 1 (R69). -/
theorem windowMantissa_of_full (P : Precision) {buf : List Bool} {n : ℕ} (hlen : P.M + 1 ≤ buf.length)
    (hval : bitsValue buf / 2 ^ (buf.length - (P.M + 1)) = n) (hn : 2 ^ P.M ≤ n) :
    windowMantissa P buf = n - 2 ^ P.M := by
  have htake : (buf.take (P.M + 1)).length = P.M + 1 := List.length_take_of_le hlen
  rw [← bitsValue_take buf (P.M + 1) hlen] at hval
  have hhead := head_of_full_bitsValue _ P.M htake (hval ▸ hn)
  rw [windowMantissa, bitsValue_drop_one _ true P.M htake hhead, hval, if_pos rfl, one_mul]

/-! ### Below 1 -/

/-- Below 1 there are no integer bits, and the search for the leading bit decides (R68). -/
theorem normalise_of_lt_one (P : Precision) {q : ℚ≥0} (h : q < 1) :
    normalise P q =
      .ok (((searchLeading P.bias P.bias q (-1)).x + P.bias).toNat,
        windowMantissa P ((searchLeading P.bias P.bias q (-1)).found ::
          fractionBits P.M (searchLeading P.bias P.bias q (-1)).f)) := by
  have hfloor : ⌊(q : ℚ)⌋₊ = 0 := by rw [floor_ratCast, Nat.floor_eq_zero.mpr h]
  have hbits : integerBits 1 0 = [] := rfl
  have hbelow : ¬ (P.emax : ℤ) ≤ -1 + P.bias := by have := P.emax_eq; omega
  simp [normalise, hfloor, hbits, hbelow, not_lt.mpr (NNRat.cast_nonneg q)]

/-- A magnitude reaches `2^-j` when j doublings bring it to 1. -/
theorem two_zpow_neg_le_iff (q : ℚ≥0) (j : ℕ) : (2 : ℚ≥0) ^ (-(j : ℤ)) ≤ q ↔ 1 ≤ (q : ℚ) * 2 ^ j := by
  rw [zpow_neg, zpow_natCast, inv_le_iff_one_le_mul₀ (by positivity), ← NNRat.cast_le (K := ℚ)]
  push_cast
  rfl

theorem lt_two_zpow_neg_iff (q : ℚ≥0) (j : ℕ) : q < (2 : ℚ≥0) ^ (-(j : ℤ)) ↔ (q : ℚ) * 2 ^ j < 1 := by
  rw [← not_le, two_zpow_neg_le_iff, not_le]

/-- The leading 1 found after `i + 1` doublings: a normal number, whose window is what is left after the 1 (R69). -/
theorem decodeVal_of_found (P : Precision) (s : SignBit) {q : ℚ≥0} {i : ℕ} (hi : i + 2 ≤ P.bias)
    (hone : 1 ≤ (q : ℚ) * 2 ^ (i + 1)) (hlt : (q : ℚ) * 2 ^ i < 1) :
    decodeVal P (.fin s q) = ⟨s, (-1 - (i : ℤ) + P.bias).toNat,
      windowMantissa P (true :: fractionBits P.M (q * 2 ^ (i + 1) - 1))⟩ := by
  have hk : (2 : ℚ≥0) ^ (-1 - (i : ℤ)) ≤ q := by
    rw [show -1 - (i : ℤ) = -((i + 1 : ℕ) : ℤ) by push_cast; ring]
    exact (two_zpow_neg_le_iff q _).2 hone
  have hk' : q < (2 : ℚ≥0) ^ (-1 - (i : ℤ) + 1) := by
    rw [show -1 - (i : ℤ) + 1 = -(i : ℤ) by ring]
    exact (lt_two_zpow_neg_iff q i).2 hlt
  have hwindow : ⌊((q : ℚ) * 2 ^ (i + 1) - 1) * 2 ^ P.M⌋₊ =
      ⌊q * (2 : ℚ≥0) ^ ((P.M : ℤ) - (-1 - (i : ℤ)))⌋₊ - 2 ^ P.M := by
    rw [show (P.M : ℤ) - (-1 - (i : ℤ)) = ((i + 1 + P.M : ℕ) : ℤ) by push_cast; ring, ← floor_ratCast_mul_pow,
      ← Nat.floor_sub_natCast]
    congr 1
    push_cast
    ring
  rw [decodeVal_normal s hk hk' (by omega) (by omega), ← hwindow,
    windowMantissa_cons_fractionBits P true (by linarith) (by rw [pow_succ]; linarith)]

/-- The boundary reached: a subnormal number, whose window is what is left after `bias - 1` doublings (R69). -/
theorem decodeVal_of_boundary (P : Precision) (s : SignBit) {q : ℚ≥0} (hlt : (q : ℚ) * 2 ^ (P.bias - 1) < 1) :
    decodeVal P (.fin s q) = ⟨s, (-(P.bias : ℤ) + P.bias).toNat,
      windowMantissa P (false :: fractionBits P.M (q * 2 ^ (P.bias - 1)))⟩ := by
  have hbias := P.bias_pos
  have hq : (0 : ℚ) ≤ q := NNRat.cast_nonneg q
  have hsub : q < (2 : ℚ≥0) ^ (1 - (P.bias : ℤ)) := by
    rw [show 1 - (P.bias : ℤ) = -((P.bias - 1 : ℕ) : ℤ) by omega]
    exact (lt_two_zpow_neg_iff q _).2 hlt
  rw [decodeVal_subnormal s hsub, windowMantissa_cons_fractionBits P false (by positivity) hlt, mul_assoc, ← pow_add,
    floor_ratCast_mul_pow, show (P.bias : ℤ) - 1 + P.M = ((P.bias - 1 + P.M : ℕ) : ℤ) by omega, neg_add_cancel]
  rfl

/-- Below 1 the normalisation gives the closed form, whichever way the search ends (R68, R69). -/
theorem normalise_eq_decodeVal_of_lt_one (P : Precision) (s : SignBit) {q : ℚ≥0} (h : q < 1) :
    normalise P q = .ok ((decodeVal P (.fin s q)).e, (decodeVal P (.fin s q)).m) := by
  have hbias : 2 ≤ P.bias := by cases P <;> decide
  have hq1 : (q : ℚ) * 2 ^ 0 < 1 := by rw [pow_zero, mul_one]; exact_mod_cast h
  have hspec := searchLeading_spec P.bias q (NNRat.cast_nonneg q) hbias P.bias 0 (Nat.zero_add _) (by omega) hq1
  simp only [pow_zero, mul_one, Nat.cast_zero, sub_zero] at hspec
  rw [normalise_of_lt_one P h]
  obtain ⟨i, hi, hr, hone, hlt⟩ | ⟨hr, hlt⟩ := hspec
  · rw [hr, decodeVal_of_found P s hi hone hlt]
  · rw [hr, decodeVal_of_boundary P s hlt]

/-! ### From 1 on -/

/-- The integer part's bits and the bits of the fraction after them, to M+1 bits or more (R69). -/
def integerBuffer (P : Precision) (q : ℚ≥0) : List Bool :=
  (integerBits (Nat.log2 ⌊q⌋₊ + 1) ⌊q⌋₊).reverse ++ fractionBits (P.M - Nat.log2 ⌊q⌋₊) ((q : ℚ) - ⌊q⌋₊)

theorem integerBits_length {n : ℕ} (h : n ≠ 0) : (integerBits (Nat.log2 n + 1) n).length = Nat.log2 n + 1 := by
  rw [(integerBits_spec _ n Nat.lt_log2_self).2, if_neg h]

/-- From 1 on the position of the integer's leading bit is the exponent (R66, R67). -/
theorem normalise_of_floor_ne_zero (P : Precision) {q : ℚ≥0} (h : ⌊q⌋₊ ≠ 0) :
    normalise P q =
      if P.bias + 1 ≤ Nat.log2 ⌊q⌋₊ then .ok (P.emax, 0)
      else .ok (Nat.log2 ⌊q⌋₊ + P.bias, windowMantissa P (integerBuffer P q)) := by
  have hlen := integerBits_length h
  have hne : integerBits (Nat.log2 ⌊q⌋₊ + 1) ⌊q⌋₊ ≠ [] := List.ne_nil_of_length_eq_add_one hlen
  have hsat : (P.emax : ℤ) ≤ -1 + ((Nat.log2 ⌊q⌋₊ + 1 : ℕ) : ℤ) + P.bias ↔ P.bias + 1 ≤ Nat.log2 ⌊q⌋₊ := by
    have := P.emax_eq
    omega
  have hexp : (-1 + ((Nat.log2 ⌊q⌋₊ + 1 : ℕ) : ℤ) + P.bias).toNat = Nat.log2 ⌊q⌋₊ + P.bias := by omega
  simp only [normalise, not_lt.mpr (NNRat.cast_nonneg q), if_false, floor_ratCast, hlen, hne, hsat, hexp,
    List.length_reverse, Nat.add_sub_add_right, integerBuffer]

/-- A magnitude from 1 on lies in the binade of its integer part's leading bit. -/
theorem binade_of_floor {q : ℚ≥0} (h : ⌊q⌋₊ ≠ 0) :
    (2 : ℚ≥0) ^ (Nat.log2 ⌊q⌋₊ : ℤ) ≤ q ∧ q < (2 : ℚ≥0) ^ ((Nat.log2 ⌊q⌋₊ : ℤ) + 1) := by
  have hlo : 2 ^ Nat.log2 ⌊q⌋₊ ≤ ⌊q⌋₊ := Nat.log2_self_le h
  have hhi : ⌊q⌋₊ < 2 ^ (Nat.log2 ⌊q⌋₊ + 1) := Nat.lt_log2_self
  rw [Nat.le_floor_iff zero_le] at hlo
  rw [Nat.floor_lt zero_le] at hhi
  constructor
  · exact_mod_cast hlo
  · exact_mod_cast hhi

/-- What the integer part leaves is a fraction. -/
theorem fraction_bounds (q : ℚ≥0) : 0 ≤ (q : ℚ) - ⌊q⌋₊ ∧ (q : ℚ) - ⌊q⌋₊ < 1 := by
  rw [← floor_ratCast]
  have hle := Nat.floor_le (NNRat.cast_nonneg (α := ℚ) q)
  have hlt := Nat.lt_floor_add_one (q : ℚ)
  constructor <;> linarith

/-- The buffer's bits are those of `q` down to the last place kept of the fraction (R69). -/
theorem bitsValue_integerBuffer (P : Precision) (q : ℚ≥0) :
    bitsValue (integerBuffer P q) = ⌊q * (2 : ℚ≥0) ^ ((P.M - Nat.log2 ⌊q⌋₊ : ℕ) : ℤ)⌋₊ := by
  obtain ⟨hf0, hf1⟩ := fraction_bounds q
  obtain ⟨hlen, hval⟩ := fractionBits_spec (P.M - Nat.log2 ⌊q⌋₊) _ hf0 hf1
  rw [integerBuffer, bitsValue_append, (integerBits_spec _ _ Nat.lt_log2_self).1, hlen, hval, ← floor_ratCast_mul_pow,
    add_comm, ← Nat.floor_add_natCast (by positivity)]
  congr 1
  push_cast
  ring

theorem integerBuffer_length (P : Precision) {q : ℚ≥0} (h : ⌊q⌋₊ ≠ 0) :
    (integerBuffer P q).length = Nat.log2 ⌊q⌋₊ + 1 + (P.M - Nat.log2 ⌊q⌋₊) := by
  obtain ⟨hf0, hf1⟩ := fraction_bounds q
  rw [integerBuffer, List.length_append, List.length_reverse, integerBits_length h, (fractionBits_spec _ _ hf0 hf1).1]

/-- From 1 on the window of the buffer is the closed form's (R69). -/
theorem windowMantissa_integerBuffer (P : Precision) {q : ℚ≥0} (h : ⌊q⌋₊ ≠ 0) :
    windowMantissa P (integerBuffer P q) = ⌊q * (2 : ℚ≥0) ^ ((P.M : ℤ) - Nat.log2 ⌊q⌋₊)⌋₊ - 2 ^ P.M := by
  obtain ⟨hk, hk'⟩ := binade_of_floor h
  have hlen := integerBuffer_length P h
  refine windowMantissa_of_full P (by omega) ?_ (window_bounds P.M hk hk').1
  rw [bitsValue_integerBuffer, hlen, ← Nat.floor_div_natCast]
  congr 1
  push_cast
  rw [mul_div_assoc, ← zpow_natCast, ← zpow_sub₀ two_ne_zero_nnrat]
  congr 2
  omega

/-- From 1 on the normalisation gives the closed form: saturated, or normal (R67, R69). -/
theorem normalise_eq_decodeVal_of_floor_ne_zero (P : Precision) (s : SignBit) {q : ℚ≥0} (h : ⌊q⌋₊ ≠ 0) :
    normalise P q = .ok ((decodeVal P (.fin s q)).e, (decodeVal P (.fin s q)).m) := by
  obtain ⟨hk, hk'⟩ := binade_of_floor h
  have hbias := P.bias_pos
  rw [normalise_of_floor_ne_zero P h]
  split
  · next hsat =>
    rw [decodeVal_saturates s ((two_zpow_le_iff_of_binade hk hk' _).2 (by exact_mod_cast hsat)), infinityFields]
  · next hbelow =>
    rw [decodeVal_normal s hk hk' (by omega) (by omega), windowMantissa_integerBuffer P h]
    rfl

/-- Settles O41: the sign, NaN and infinity are the same cases, and the normalisation gives the closed form below 1 and
from 1 on. -/
theorem loopFormComputesTheClosedForm : Obligations.LoopFormComputesTheClosedForm := by
  intro P v
  cases v with
  | nan s => rfl
  | inf s => rfl
  | fin s q =>
    have hnorm : normalise P q = .ok ((decodeVal P (.fin s q)).e, (decodeVal P (.fin s q)).m) := by
      by_cases h : ⌊q⌋₊ = 0
      · exact normalise_eq_decodeVal_of_lt_one P s (Nat.floor_eq_zero.mp h)
      · exact normalise_eq_decodeVal_of_floor_ne_zero P s h
    simp only [decodeRef, hnorm, Except.ok.injEq]
    exact ((decodeVal_fin_eq_iff P s q _ _).2 ⟨rfl, rfl⟩).symm

end Sys2Proof.Machine
end

section
/-! PROOFS. Actions and the edges that present them (R35 to R37). -/

namespace Sys2Proof.Machine

open Sys2Proof

/-- Settles O1: each command word selects its instruction; the table's words fit the command port. -/
theorem everyCommandWordIsOneOfTheFourCommands : Obligations.EveryCommandWordIsOneOfTheFourCommands := by
  refine ⟨fun p => ⟨decodeCommand_dec32, decodeCommand_dec64, decodeCommand_enc32, decodeCommand_enc64⟩, ?_⟩
  rintro n (rfl | rfl)
  · exact ⟨rfl, rfl, rfl, rfl⟩
  · exact ⟨rfl, rfl, rfl, rfl⟩

/-- An action is read back from the edge that presents it. -/
theorem decodeEdge_encodeEdge (a : Action) : decodeEdge (encodeEdge a) = a := by
  cases a with
  | reset => rfl
  | idle => rfl
  | command i => cases i <;> rfl

/-- Only a sampling edge is read as a command (R27, R114). -/
theorem decodeEdge_eq_command_iff (p : PortInputs) (i : Instr) :
    decodeEdge p = .command i ↔ p.rst = false ∧ p.start = true ∧ decodeCommand p = i := by
  cases hr : p.rst with
  | true => simp [decodeEdge_reset hr]
  | false =>
    cases hs : p.start with
    | false => simp [decodeEdge_idle hr hs]
    | true => simp [decodeEdge_command hr hs]

/-- The ports are read as an instruction exactly when its word is on `cmd` and its operands on the ports it uses
(R36). -/
theorem decodeCommand_eq_iff (p : PortInputs) (i : Instr) :
    decodeCommand p = i ↔ p.cmd = i.commandWord ∧
      ∀ v sg e m, (i = .dec32 v ∨ i = .dec64 v → p.valIn = v) ∧
        (i = .enc32 sg e m ∨ i = .enc64 sg e m → p.signIn = sg ∧ p.expIn = e ∧ p.manIn = m) := by
  constructor
  · rintro rfl
    unfold decodeCommand
    split_ifs with h0 h1 h2
    · simp [h0, Instr.commandWord]
    · simp [h1, Instr.commandWord]
    · simp [h2, Instr.commandWord]
    · have h3 : p.cmd = 0b11#2 := by
        generalize p.cmd = c at h0 h1 h2 ⊢
        revert c
        decide
      simp [h3, Instr.commandWord]
  · rintro ⟨hcmd, hports⟩
    cases i with
    | dec32 v => rw [decodeCommand_dec32 hcmd, (hports v 0 0 0).1 (.inl rfl)]
    | dec64 v => rw [decodeCommand_dec64 hcmd, (hports v 0 0 0).1 (.inr rfl)]
    | enc32 sg e m =>
      obtain ⟨hsg, he, hm⟩ := (hports 0 sg e m).2 (.inl rfl)
      rw [decodeCommand_enc32 hcmd, hsg, he, hm]
    | enc64 sg e m =>
      obtain ⟨hsg, he, hm⟩ := (hports 0 sg e m).2 (.inr rfl)
      rw [decodeCommand_enc64 hcmd, hsg, he, hm]

/-- Settles O2: each action is read back, and a sampling edge is read by its command word. -/
theorem edgesAndActionsRoundTrip : Obligations.EdgesAndActionsRoundTrip := by
  constructor
  · intro l
    rw [List.map_map, show decodeEdge ∘ encodeEdge = id from funext decodeEdge_encodeEdge, List.map_id]
  · intro p i
    rw [decodeEdge_eq_command_iff, decodeCommand_eq_iff]

end Sys2Proof.Machine
end

section
/-! PROOFS. The fields of the status word (R17), and the output ports that may be read (R16, R120). -/

namespace Sys2Proof.Machine

open Sys2Proof

/-! ### The status word -/

/-- The status word as a number (R17). -/
theorem statusWord_toNat (d e : BitVec 1) (c k : BitVec 2) (p : BitVec 1) :
    (statusWord d e c k p).toNat = d.toNat + 2 * e.toNat + 4 * c.toNat + 16 * k.toNat + 64 * p.toNat := by
  revert d e c k p
  decide

/-- Settles O17: one lemma per field, and the number. -/
theorem statusWordHasItsFieldsWhereTheTablePutsThem : Obligations.StatusWordHasItsFieldsWhereTheTablePutsThem :=
  fun d e c k p => ⟨statusDone_statusWord d e c k p, statusErr_statusWord d e c k p, statusCode_statusWord d e c k p,
    statusKind_statusWord d e c k p, statusPrec_statusWord d e c k p, statusReserved_statusWord d e c k p,
    statusWord_toNat d e c k p⟩

/-! ### The ports that may be read -/

/-- A port may be read exactly when its register holds a value (R16). -/
theorem held_ok_iff {w : Nat} (p : OutPort) (r : Option (BitVec w)) : (∃ x, held p r = .ok x) ↔ r.isSome = true := by
  cases r with
  | none => simp
  | some x => simp

theorem inv_iff_of_status {s : State} {w : BitVec 8} (hw : s.status = some w) :
    Inv s ↔ StatusLegal w ∧ ResultsAgree w s := by
  rw [Inv, hw]

/-- A legal status has one of three kinds (R17). -/
theorem statusLegal_kind {w : BitVec 8} (h : StatusLegal w) :
    statusKind w = 0#2 ∨ statusKind w = 1#2 ∨ statusKind w = 2#2 := by
  obtain ⟨-, hkind, -⟩ := h
  generalize statusKind w = k at hkind ⊢
  revert k
  decide

/-- Which result registers hold a value is decided by the kind (R16). -/
theorem isSome_iff_statusKind {s : State} {w : BitVec 8} (hinv : Inv s) (hw : s.status = some w) :
    (s.rSign.isSome = true ↔ statusKind w = 1#2) ∧ (s.rExp.isSome = true ↔ statusKind w = 1#2) ∧
      (s.rMan.isSome = true ↔ statusKind w = 1#2) ∧ (s.rVal.isSome = true ↔ statusKind w = 2#2) ∧
      (s.rCls.isSome = true ↔ statusKind w = 1#2 ∨ statusKind w = 2#2) := by
  obtain ⟨hlegal, hnone, hfields, hvalue⟩ := (inv_iff_of_status hw).1 hinv
  obtain hk | hk | hk := statusLegal_kind hlegal
  · obtain ⟨hsign, hexp, hman, hval, hcls⟩ := hnone hk
    simp [hk, hsign, hexp, hman, hval, hcls]
  · obtain ⟨b, e, m, hsign, hexp, hman, hval, -, hcls⟩ := hfields hk
    simp [hk, hsign, hexp, hman, hval, hcls]
  · obtain ⟨v, c, hsign, hexp, hman, hval, hcls⟩ := hvalue hk
    simp [hk, hsign, hexp, hman, hval, hcls]

/-- Settles O18: a port is read from its register, and the kind says which registers hold a value. -/
theorem portsReadableAreDecidedByKind : Obligations.PortsReadableAreDecidedByKind := by
  intro s w hinv hw
  obtain ⟨hsign, hexp, hman, hval, hcls⟩ := isSome_iff_statusKind hinv hw
  exact ⟨congrArg (held .status) hw, (held_ok_iff .sign s.rSign).trans hsign, (held_ok_iff .exp s.rExp).trans hexp,
    (held_ok_iff .man s.rMan).trans hman, (held_ok_iff .val s.rVal).trans hval, (held_ok_iff .cls s.rCls).trans hcls⟩

/-- What an encode leaves in the fields' registers: none, with a value and with an error. -/
theorem writeOutcome_encodeOutcome_no_fields (P : Precision) (sg : SignBit) (e : ExpPort) (m : ManPort) (s : State) :
    (writeOutcome (encodeOutcome P sg e m) s).rSign = none ∧ (writeOutcome (encodeOutcome P sg e m) s).rExp = none ∧
      (writeOutcome (encodeOutcome P sg e m) s).rMan = none := by
  obtain ⟨w, c, h⟩ | h := encodeOutcome_cases P sg e m
  · rw [h]
    exact ⟨rfl, rfl, rfl⟩
  · rw [h]
    exact ⟨rfl, rfl, rfl⟩

/-- With no result held, a read of every port but `status` is refused (R16). -/
theorem readPort_of_noResult {s : State} (h : NoResult s) {p : OutPort} (hp : p ≠ .status) :
    readPort p s = .error (.portHoldsNone p) := by
  obtain ⟨hsign, hexp, hman, hval, hcls⟩ := h
  cases p with
  | sign => exact congrArg (held .sign) hsign
  | exp => exact congrArg (held .exp) hexp
  | man => exact congrArg (held .man) hman
  | val => exact congrArg (held .val) hval
  | cls => exact congrArg (held .cls) hcls
  | status => exact absurd rfl hp

theorem noResult_raiseError (x : CodecError) (s : State) : NoResult (raiseError x s) := ⟨rfl, rfl, rfl, rfl, rfl⟩

/-- After an encode a read of the fields' ports is refused (R120). -/
theorem readPort_encodeOutcome_fields {P : Precision} {sg : SignBit} {e : ExpPort} {m : ManPort} {s t : State}
    (h : writeOutcome (encodeOutcome P sg e m) s = t) :
    readPort .sign t = .error (.portHoldsNone .sign) ∧ readPort .exp t = .error (.portHoldsNone .exp) ∧
      readPort .man t = .error (.portHoldsNone .man) := by
  obtain ⟨hsign, hexp, hman⟩ := writeOutcome_encodeOutcome_no_fields P sg e m s
  rw [h] at hsign hexp hman
  exact ⟨congrArg (held .sign) hsign, congrArg (held .exp) hexp, congrArg (held .man) hman⟩

/-- Settles O19: a decode leaves no value, an encode no fields, an error and a reset no result, and before the first
reset there is no status either. -/
theorem portsThatHoldNoneAreRefused : Obligations.PortsThatHoldNoneAreRefused := by
  refine ⟨fun v s t h => ?decode, fun sg e m s t h => ?encode, fun sg e m s t hpad h p hp => ?error,
    fun p hp => readPort_of_noResult noResult_reset hp, fun p => ?powerOn⟩
  case decode =>
    rw [exec_eq, exec_eq, Host.Outcome.next.injEq, Host.Outcome.next.injEq] at h
    obtain rfl | rfl := h <;> rfl
  case encode =>
    rw [exec_eq, exec_eq, Host.Outcome.next.injEq, Host.Outcome.next.injEq] at h
    exact h.elim readPort_encodeOutcome_fields readPort_encodeOutcome_fields
  case error =>
    rw [exec_eq, Host.Outcome.next.injEq, outcomeOf, writeOutcome_encodeOutcome_of_padding hpad] at h
    exact readPort_of_noResult (h ▸ noResult_raiseError .invalidInput s) hp
  case powerOn => cases p <;> rfl

end Sys2Proof.Machine
end

section
/-! PROOFS. Several instances of the block, which share nothing (R31, R110). -/

namespace Sys2Proof.Machine

open Sys2Proof

/-- An edge of one block replaces its state by the next one. -/
theorem stepAt_of_some {p : Platform} {k : Nat} {s t : State} (hs : p.blocks[k]? = some s) (ht : step s = .next t) :
    p.stepAt k = ⟨p.blocks.set k t⟩ := by
  simp only [Platform.stepAt, hs, ht]

/-- An edge of a block that does not exist changes nothing. -/
theorem stepAt_of_none {p : Platform} {k : Nat} (hs : p.blocks[k]? = none) : p.stepAt k = p := by
  simp only [Platform.stepAt, hs]

/-- An edge leaves every other block as it was (R31). -/
theorem stepAt_other (p : Platform) {k j : Nat} (h : k ≠ j) : (p.stepAt k).blocks[j]? = p.blocks[j]? := by
  cases hs : p.blocks[k]? with
  | none => rw [stepAt_of_none hs]
  | some s =>
    obtain ⟨t, ht⟩ := step_total s
    rw [stepAt_of_some hs ht]
    exact List.getElem?_set_ne h

/-- An edge is a step of its own block (R110). -/
theorem stepAt_same {p : Platform} {k : Nat} {s : State} (hs : p.blocks[k]? = some s) :
    ∃ t, step s = .next t ∧ (p.stepAt k).blocks[k]? = some t := by
  obtain ⟨t, ht⟩ := step_total s
  obtain ⟨hk, -⟩ := List.getElem?_eq_some_iff.1 hs
  refine ⟨t, ht, ?_⟩
  rw [stepAt_of_some hs ht]
  exact List.getElem?_set_self hk

/-- Edges of different blocks commute: neither sees the other's state, and they replace different places. -/
theorem stepAt_comm (p : Platform) {k j : Nat} (h : k ≠ j) : (p.stepAt k).stepAt j = (p.stepAt j).stepAt k := by
  have hj := stepAt_other p h
  have hk := stepAt_other p h.symm
  cases hsk : p.blocks[k]? with
  | none => rw [stepAt_of_none hsk, stepAt_of_none (hk.trans hsk)]
  | some s =>
    cases hsj : p.blocks[j]? with
    | none => rw [stepAt_of_none hsj, stepAt_of_none (hj.trans hsj)]
    | some s' =>
      obtain ⟨t, ht⟩ := step_total s
      obtain ⟨t', ht'⟩ := step_total s'
      rw [stepAt_of_some (hj.trans hsj) ht', stepAt_of_some (hk.trans hsk) ht, stepAt_of_some hsk ht,
        stepAt_of_some hsj ht', List.set_comm _ _ h]

/-- Settles O59: an edge replaces one place of the list by the next state of the block there. -/
theorem instancesShareNothing : Obligations.InstancesShareNothing :=
  ⟨fun p _ _ => stepAt_other p, fun _ _ _ => stepAt_same, fun p _ _ => stepAt_comm p⟩

end Sys2Proof.Machine
end
